-- ==== Sys2Proof/Config.lean ====
section
/-! DEFINITION. The named sizes and limits of CORE (R8, R9). None of them is tunable (R2, R116), and the spec leaves no
result value open, so there is no free value here. -/

namespace Sys2Proof.Config

/-- `BLOCK_BYTES` (R8): bytes of one input block, and the size of `BUF` (R50). -/
def blockBytes : Nat := 64

/-- `PAD_RESIDUE` (R8): where the length field starts in the last block. -/
def padResidue : Nat := 56

/-- `SB_BYTES` (R9, D10): bytes of the Stream Buffer. -/
def sbBytes : Nat := 33

/-- `SB_BITS_MAX` (R9): bits of the Stream Buffer. -/
def sbBits : Nat := 264

/-- `CHUNK_BITS` (R8): width of one index. -/
def chunkBits : Nat := 11

/-- `MAX_MSG_BYTES` (R9, D6): the longest message the spec gives a meaning to, 2^61 - 1 bytes. The spec lets a model take
a smaller bound; this one takes the largest. -/
def maxMsgBytes : Nat := 2305843009213693951

end Sys2Proof.Config
end

