-- ==== Sys2Proof/Word.lean ====
section
/-! DEFINITION. The two value widths of CORE and the eight-word groups it works on. -/

namespace Sys2Proof

/-- A byte: 8 bits, 0 to 255 (R10). -/
abbrev Byte := BitVec 8

/-- A word: 32 bits, unsigned (R10, R100). -/
abbrev Word := BitVec 32

/-- An 11-bit unsigned index, 0 to 2047 (R8 `CHUNK_BITS`, R160). -/
abbrev Index := BitVec 11

/-- The running digest `H[0..7]`: CORE's only file of word registers (R21). -/
structure HashWords where
  h0 : Word
  h1 : Word
  h2 : Word
  h3 : Word
  h4 : Word
  h5 : Word
  h6 : Word
  h7 : Word
  deriving DecidableEq, Repr

/-- The eight working variables of the compression function (R33, R113); they live inside one command. -/
structure WorkVars where
  a : Word
  b : Word
  c : Word
  d : Word
  e : Word
  f : Word
  g : Word
  h : Word
  deriving DecidableEq, Repr

end Sys2Proof
end

