-- ==== Sys2Proof/Machine/Bytes.lean ====
section
/-! DEFINITION. Byte and bit layouts: every multi-byte quantity is big-endian (R15, R52), every bit stream is most
significant bit first (R13, R53). -/

namespace Sys2Proof.Machine

/-- `zeros(n)` (R12). -/
def zeros (n : Nat) : List Byte := List.replicate n 0

/-- `be32(b0, b1, b2, b3)`: four bytes as a big-endian word (R15). -/
def be32 (b0 b1 b2 b3 : Byte) : Word :=
  BitVec.ofNat 32 (b0.toNat * 16777216 + b1.toNat * 65536 + b2.toNat * 256 + b3.toNat)

/-- `bytes_be32(w)`: most significant byte first (R15). -/
def bytesBE32 (w : Word) : List Byte :=
  [BitVec.extractLsb' 24 8 w, BitVec.extractLsb' 16 8 w, BitVec.extractLsb' 8 8 w, BitVec.extractLsb' 0 8 w]

/-- The unsigned number a byte sequence spells, most significant byte first (R15, R77). -/
def beNat (bs : List Byte) : Nat := bs.foldl (fun n b => n * 256 + b.toNat) 0

/-- The low `8 * k` bits of `n` as `k` bytes, most significant byte first (R15, R77). -/
def natBytes : Nat → Nat → List Byte
  | 0, _ => []
  | k + 1, n => BitVec.ofNat 8 (n / 256 ^ k) :: natBytes k n

/-- `bytes_be64(n)` (R15). -/
def bytesBE64 (n : BitVec 64) : List Byte := natBytes 8 n.toNat

/-- `bit(s, k)`: stream bit `k` of a byte sequence, bit 0 the most significant bit of byte 0 (R13). -/
def bitOf (s : List Byte) (k : Nat) : Bool := (s.getD (k / 8) 0).getLsbD (7 - k % 8)

/-- `(0xFF << (8 - n)) mod 256`: the mask of the top `n` bits of a byte (R150, R152). -/
def topMask (n : Nat) : Byte := 0xFF#8 <<< (8 - n)

end Sys2Proof.Machine
end

