-- ==== Sys2Proof/Machine/Operands.lean ====
section
/-! DEFINITION. Operand forms: the sizes and checks of the operands a command takes, from its encoding (`nbits`, `data`)
or from `SLEN`. CORE has no other addressing mode (R77, R133). -/

namespace Sys2Proof.Machine

/-- `ceil(n / 8)`: the bytes that hold `n` stream bits (R74, R78). -/
def ceilBytes (n : Nat) : Nat := (n + 7) / 8

/-- The operands of `SB_LOAD` are well formed (R81, R150, R189). -/
def streamOperandsOk (nbits : Nat) (data : List Byte) : Bool :=
  decide (nbits ≤ Config.sbBits) && decide (data.length = ceilBytes nbits)

/-- The stream lengths, in bits, that are entropy of an admitted length (`ENT_LENGTHS`, R8, R152). -/
def entropyBits : List Nat := [128, 160, 192, 224, 256]

/-- `SLEN` is 8 times an admitted entropy length (R152, R183). -/
def isEntropyLength (slen : Nat) : Bool := entropyBits.contains slen

/-- `CS`, the number of checksum bits of `L` entropy bytes (R75, R152). -/
def checksumBits (L : Nat) : Nat := L / 4

end Sys2Proof.Machine
end

