-- ==== Sys2Proof/Syntax.lean ====
section
/-! DEFINITION. The eight commands of CORE, one constructor per row of spec/opcode_table.json (R71). -/

namespace Sys2Proof

/-- A command with its operands (R17, R71). -/
inductive Instr where
  /-- `HE_INIT`, opcode 0x00 (R131). -/
  | heInit
  /-- `HE_UPDATE data`, opcode 0x01 (R132). -/
  | heUpdate (data : List Byte)
  /-- `HE_FINAL`, opcode 0x02 (R134). -/
  | heFinal
  /-- `HE_HASH data`, opcode 0x03 (R138). -/
  | heHash (data : List Byte)
  /-- `SB_LOAD nbits data`, opcode 0x10 (R150); operands of any value, checked when it runs (R189). -/
  | sbLoad (nbits : Nat) (data : List Byte)
  /-- `CS_APPEND`, opcode 0x11 (R152). -/
  | csAppend
  /-- `BCX_NEXT`, opcode 0x20 (R162). -/
  | bcxNext
  /-- `BCX_ALL`, opcode 0x21 (R164). -/
  | bcxAll
  deriving DecidableEq, Repr

/-- What a decoder makes of the byte sequence of one command (R76 to R81). -/
inductive Decoded where
  /-- The byte sequence is this command. -/
  | command (i : Instr)
  /-- Its opcode byte is none of the eight; what follows was not looked at (R80, R188). -/
  | illegal (opcode : Byte)
  /-- It ends before the length its header declares (93 U12). -/
  | incomplete
  /-- It goes on past the end of its command, formats N and D (log entry 6). -/
  | overlong
  deriving DecidableEq, Repr

end Sys2Proof
end

