-- ==== Sys2Proof/WellFormed.lean ====
section
/-! DEFINITION. Which commands have a byte encoding (R76 to R78): what their operand fields can hold. Whether the operands of
`SB_LOAD` are ones it accepts is a check of the command itself (R189), not of its form. -/

namespace Sys2Proof

/-- The command can be encoded: `LEN` fits 8 bytes; `NBITS` fits 2 bytes and at least the data it declares is there. -/
def Instr.wellFormed : Instr → Bool
  | .heInit => true
  | .heUpdate data => decide (data.length < 2 ^ 64)
  | .heFinal => true
  | .heHash data => decide (data.length < 2 ^ 64)
  | .sbLoad nbits data => decide (nbits < 2 ^ 16) && decide (Machine.ceilBytes nbits ≤ data.length)
  | .csAppend => true
  | .bcxNext => true
  | .bcxAll => true

end Sys2Proof
end

