-- ==== Sys2Proof/Decode.lean ====
section
/-! DEFINITION. The byte encoding of a command (R76 to R78): the decoder, total on any byte sequence, and after it an
encoder written from the same tables. One byte sequence is one command as the host issues it (D1). -/

namespace Sys2Proof

/-- Format `N`: nothing after the opcode byte (R76). -/
def decodeN (i : Instr) (rest : List Byte) : Decoded :=
  if rest.length = 0 then .command i else .overlong

/-- Format `D`: `LEN`, 8 bytes big-endian, then `LEN` data bytes (R76, R77). -/
def decodeD (mk : List Byte → Instr) (rest : List Byte) : Decoded :=
  if rest.length < 8 then .incomplete
  else if (rest.drop 8).length < Machine.beNat (rest.take 8) then .incomplete
  else if Machine.beNat (rest.take 8) < (rest.drop 8).length then .overlong
  else .command (mk (rest.drop 8))

/-- Format `S`: `NBITS`, 2 bytes big-endian, then the data bytes (R76, R77). More data than `NBITS` declares is a
malformed operand, which the command itself answers (R81). -/
def decodeS (rest : List Byte) : Decoded :=
  if rest.length < 2 then .incomplete
  else if (rest.drop 2).length < Machine.ceilBytes (Machine.beNat (rest.take 2)) then .incomplete
  else .command (.sbLoad (Machine.beNat (rest.take 2)) (rest.drop 2))

/-- The command a byte sequence spells. The opcode byte alone tells the format (R76); a byte that is none of the eight is
illegal and nothing behind it is interpreted (R80, R188). -/
def decode : List Byte → Decoded
  | [] => .incomplete
  | op :: rest =>
    if op = 0x00#8 then decodeN .heInit rest
    else if op = 0x01#8 then decodeD .heUpdate rest
    else if op = 0x02#8 then decodeN .heFinal rest
    else if op = 0x03#8 then decodeD .heHash rest
    else if op = 0x10#8 then decodeS rest
    else if op = 0x11#8 then decodeN .csAppend rest
    else if op = 0x20#8 then decodeN .bcxNext rest
    else if op = 0x21#8 then decodeN .bcxAll rest
    else .illegal op

/-- The opcode byte: unit in bits 7 to 4, function in bits 3 to 0 (R71, R76). -/
def Instr.opcode : Instr → Byte
  | .heInit => 0x00#8
  | .heUpdate _ => 0x01#8
  | .heFinal => 0x02#8
  | .heHash _ => 0x03#8
  | .sbLoad _ _ => 0x10#8
  | .csAppend => 0x11#8
  | .bcxNext => 0x20#8
  | .bcxAll => 0x21#8

/-- The bytes after the opcode byte (R76, R77). -/
def Instr.operandBytes : Instr → List Byte
  | .heInit => []
  | .heUpdate data => Machine.natBytes 8 data.length ++ data
  | .heFinal => []
  | .heHash data => Machine.natBytes 8 data.length ++ data
  | .sbLoad nbits data => Machine.natBytes 2 nbits ++ data
  | .csAppend => []
  | .bcxNext => []
  | .bcxAll => []

/-- The byte sequence of a well-formed command (R76). -/
def encode (i : Instr) : List Byte := i.opcode :: i.operandBytes

/-- The length a command declares for itself, from its opcode byte and length field (R78); 1 for an illegal opcode. -/
def declaredLength : List Byte → Nat
  | [] => 0
  | op :: rest =>
    if op = 0x01#8 ∨ op = 0x03#8 then 9 + Machine.beNat (rest.take 8)
    else if op = 0x10#8 then 3 + Machine.ceilBytes (Machine.beNat (rest.take 2))
    else 1

/-- `k` bytes of `w`, bit 0 of `w` the least significant bit of the first: the numbering of spec/opcode_table.json. -/
def tableBytes : Nat → Nat → List Byte
  | 0, _ => []
  | k + 1, w => BitVec.ofNat 8 w :: tableBytes k (w / 256)

/-- The byte sequence of the command whose first `nbits` bits are `w`, every later bit 0, as long as it declares. -/
def tableCommand (nbits w : Nat) : List Byte :=
  let header := tableBytes ((nbits + 7) / 8) w ++ Machine.zeros 8
  (header ++ Machine.zeros (declaredLength header - header.length)).take (declaredLength header)

/-- The command the decoder reads from the table's bits; none where it does not give one. -/
def decodeTableWord (nbits w : Nat) : Option Instr :=
  match decode (tableCommand nbits w) with
  | .command i => some i
  | _ => none

end Sys2Proof
end

