-- ==== Sys2Proof/Machine/Sha256.lean ====
section
/-! DEFINITION. The word functions, constants and compression function of SHA-256 (spec/40_sha256_functions.md), and
the pure function `SHA-256(m)` (R72, R137). No state: these run inside commands. -/

namespace Sys2Proof.Machine

/-- `ROTR(x, n)`, `0 < n < 32` (R102). -/
def rotr (x : Word) (n : Nat) : Word := (x >>> n) ||| (x <<< (32 - n))

/-- `SHR(x, n)` (R103). -/
def shr (x : Word) (n : Nat) : Word := x >>> n

/-- `Ch(x, y, z)` (R104). -/
def ch (x y z : Word) : Word := (x &&& y) ^^^ (~~~x &&& z)

/-- `Maj(x, y, z)` (R105). -/
def maj (x y z : Word) : Word := (x &&& y) ^^^ (x &&& z) ^^^ (y &&& z)

/-- `BSIG0(x)` (R106). -/
def bsig0 (x : Word) : Word := rotr x 2 ^^^ rotr x 13 ^^^ rotr x 22

/-- `BSIG1(x)` (R107). -/
def bsig1 (x : Word) : Word := rotr x 6 ^^^ rotr x 11 ^^^ rotr x 25

/-- `SSIG0(x)` (R108). -/
def ssig0 (x : Word) : Word := rotr x 7 ^^^ rotr x 18 ^^^ shr x 3

/-- `SSIG1(x)` (R109). -/
def ssig1 (x : Word) : Word := rotr x 17 ^^^ rotr x 19 ^^^ shr x 10

/-- `H_INIT[0..7]` (R110). -/
def hInit : HashWords where
  h0 := 0x6A09E667#32
  h1 := 0xBB67AE85#32
  h2 := 0x3C6EF372#32
  h3 := 0xA54FF53A#32
  h4 := 0x510E527F#32
  h5 := 0x9B05688C#32
  h6 := 0x1F83D9AB#32
  h7 := 0x5BE0CD19#32

/-- `K[0..15]` (R111). -/
def kRow0 : List Word :=
  [0x428A2F98#32, 0x71374491#32, 0xB5C0FBCF#32, 0xE9B5DBA5#32, 0x3956C25B#32, 0x59F111F1#32, 0x923F82A4#32, 0xAB1C5ED5#32,
   0xD807AA98#32, 0x12835B01#32, 0x243185BE#32, 0x550C7DC3#32, 0x72BE5D74#32, 0x80DEB1FE#32, 0x9BDC06A7#32, 0xC19BF174#32]

/-- `K[16..31]` (R111). -/
def kRow1 : List Word :=
  [0xE49B69C1#32, 0xEFBE4786#32, 0x0FC19DC6#32, 0x240CA1CC#32, 0x2DE92C6F#32, 0x4A7484AA#32, 0x5CB0A9DC#32, 0x76F988DA#32,
   0x983E5152#32, 0xA831C66D#32, 0xB00327C8#32, 0xBF597FC7#32, 0xC6E00BF3#32, 0xD5A79147#32, 0x06CA6351#32, 0x14292967#32]

/-- `K[32..47]` (R111). -/
def kRow2 : List Word :=
  [0x27B70A85#32, 0x2E1B2138#32, 0x4D2C6DFC#32, 0x53380D13#32, 0x650A7354#32, 0x766A0ABB#32, 0x81C2C92E#32, 0x92722C85#32,
   0xA2BFE8A1#32, 0xA81A664B#32, 0xC24B8B70#32, 0xC76C51A3#32, 0xD192E819#32, 0xD6990624#32, 0xF40E3585#32, 0x106AA070#32]

/-- `K[48..63]` (R111). -/
def kRow3 : List Word :=
  [0x19A4C116#32, 0x1E376C08#32, 0x2748774C#32, 0x34B0BCB5#32, 0x391C0CB3#32, 0x4ED8AA4A#32, 0x5B9CCA4F#32, 0x682E6FF3#32,
   0x748F82EE#32, 0x78A5636F#32, 0x84C87814#32, 0x8CC70208#32, 0x90BEFFFA#32, 0xA4506CEB#32, 0xBEF9A3F7#32, 0xC67178F2#32]

/-- The round constants `K[0..63]`, in index order (R111, C2). -/
def kTable : List Word := kRow0 ++ kRow1 ++ kRow2 ++ kRow3

/-- Word `M[i]` of a block: bytes `4i` to `4i + 3`, big-endian (R70). -/
def blockWord (B : List Byte) (i : Nat) : Word :=
  be32 (B.getD (4 * i) 0) (B.getD (4 * i + 1) 0) (B.getD (4 * i + 2) 0) (B.getD (4 * i + 3) 0)

/-- The next word `W[i]`, `i = len(W) >= 16`, of a schedule under construction (R112). -/
def nextScheduleWord (W : List Word) : Word :=
  ssig1 (W.getD (W.length - 2) 0) + W.getD (W.length - 7) 0 + ssig0 (W.getD (W.length - 15) 0) + W.getD (W.length - 16) 0

/-- Append `n` further schedule words, in increasing order of their index (R112). -/
def extendSchedule : Nat → List Word → List Word
  | 0, W => W
  | n + 1, W => extendSchedule n (W ++ [nextScheduleWord W])

/-- `SCHEDULE(B)`: the 64 words `W[0..63]` of a block (R112). -/
def schedule (B : List Byte) : List Word := extendSchedule 48 ((List.range 16).map (blockWord B))

/-- `ROUND(t, v, W)` (R113). -/
def round (t : Nat) (v : WorkVars) (W : List Word) : WorkVars :=
  let t1 := v.h + bsig1 v.e + ch v.e v.f v.g + kTable.getD t 0 + W.getD t 0
  let t2 := bsig0 v.a + maj v.a v.b v.c
  { a := t1 + t2, b := v.a, c := v.b, d := v.c, e := v.d + t1, f := v.e, g := v.f, h := v.g }

/-- The working variables start from `H` (R115). -/
def workVars (H : HashWords) : WorkVars :=
  { a := H.h0, b := H.h1, c := H.h2, d := H.h3, e := H.h4, f := H.h5, g := H.h6, h := H.h7 }

/-- The working variables after rounds `0` to `n - 1` (R115). -/
def rounds (n : Nat) (v : WorkVars) (W : List Word) : WorkVars :=
  (List.range n).foldl (fun u t => round t u W) v

/-- Feed-forward: add the working variables to the hash state, word by word modulo 2^32 (R114). -/
def feedForward (H : HashWords) (v : WorkVars) : HashWords :=
  { h0 := H.h0 + v.a, h1 := H.h1 + v.b, h2 := H.h2 + v.c, h3 := H.h3 + v.d,
    h4 := H.h4 + v.e, h5 := H.h5 + v.f, h6 := H.h6 + v.g, h7 := H.h7 + v.h }

/-- `COMPRESS(B)` on the hash state `H`: what it leaves in `H` (R115). Irreducible so that no proof about what surrounds it
runs its 64 rounds by accident. -/
@[irreducible] def compress (H : HashWords) (B : List Byte) : HashWords :=
  feedForward H (rounds 64 (workVars H) (schedule B))

/-- `DIGEST_OF(H)`: the 32 digest bytes, big-endian, `H[0]` first (R73, R136). -/
def digestOf (H : HashWords) : List Byte :=
  bytesBE32 H.h0 ++ bytesBE32 H.h1 ++ bytesBE32 H.h2 ++ bytesBE32 H.h3 ++
  bytesBE32 H.h4 ++ bytesBE32 H.h5 ++ bytesBE32 H.h6 ++ bytesBE32 H.h7

/-- `padded(m)` (R72): 0x80, then `z = (55 - n) mod 64` zero bytes (on naturals `(119 - n mod 64) mod 64`), then the bit
length of the whole message, 8 bytes. -/
def padded (m : List Byte) : List Byte :=
  m ++ [0x80#8] ++ zeros ((119 - m.length % 64) % 64) ++ bytesBE64 (BitVec.ofNat 64 (8 * m.length))

/-- Compress the first `n` 64-byte blocks of `P`, in order, starting from `H` (R137). -/
def compressBlocks : Nat → HashWords → List Byte → HashWords
  | 0, H, _ => H
  | n + 1, H, P => compressBlocks n (compress H (P.take 64)) (P.drop 64)

/-- `SHA-256(m)` (R137): the digest of the blocks of `padded(m)`, started from `H_INIT`. -/
def sha256 (m : List Byte) : List Byte :=
  digestOf (compressBlocks ((padded m).length / 64) hInit (padded m))

end Sys2Proof.Machine
end

