-- ==== Sys2Proof/Machine/State.lean ====
section
/-! DEFINITION. The state of CORE (R20), its responses (R79) and fault codes (R181), the reasons a step of the model can
stop, and the state after reset (R37, R200). -/

namespace Sys2Proof.Machine

/-- A byte memory: the listed cells, addresses strictly rising, none holding what an unlisted address reads as
(`unlistedByte`). `BUF` and `SB` are two such memories, each with indices of its own (R50). -/
abbrev Memory := List Host.Cell

/-- What an unlisted address of a memory reads as. For `SB` it is the spec's reset content (R37). For `BUF[FILL..63]`,
which hold no value (R22), it is a DESIGN CHOICE (log entry 1): no command reads those bytes. -/
def unlistedByte : Byte := 0x00#8

/-- `PHASE` (R25). -/
inductive Phase where
  | empty
  | accumulating
  | finalized
  deriving DecidableEq, Repr

/-- The phases in which the Hash Engine items hold values (R27). -/
inductive LivePhase where
  | empty
  | accumulating
  deriving DecidableEq, Repr

/-- A Hash Engine instance that is still in use (R20, R27). -/
@[ext] structure Live where
  /-- `H[0..7]` (R21). -/
  h : HashWords
  /-- `BUF[0..63]` (R22): the bytes `0` to `FILL - 1` hold the message bytes not yet compressed; no later byte is listed. -/
  buf : Memory
  /-- `FILL`, 0 to 63 between commands (R23). -/
  fill : Nat
  /-- `TOTAL`, the count of message bytes (R24). -/
  total : BitVec 64
  /-- `PHASE` (R25). -/
  phase : LivePhase
  deriving DecidableEq, Repr

/-- The host-visible Hash Engine instance as the sum R27 asks for: in `Finalized` the items `H`, `BUF`, `FILL` and `TOTAL`
hold no value. -/
inductive HashEngine where
  | live (e : Live)
  | finalized
  deriving DecidableEq, Repr

/-- The names of the fault responses (R181). -/
inductive FaultCode where
  | invalidSize
  | generationFailure
  | indexOutOfRange
  | useAfterFinalize
  | illegalCommand
  | badOperand
  deriving DecidableEq, Repr

/-- What an `Ok` response carries (R79). -/
inductive Payload where
  /-- Nothing: `HE_INIT`, `HE_UPDATE`, `SB_LOAD`. -/
  | nothing
  /-- The 32 digest bytes: `HE_FINAL`, `HE_HASH`. -/
  | digest (bytes : List Byte)
  /-- `SLEN` and the bytes that hold the stream: `CS_APPEND`. -/
  | stream (slen : Nat) (bytes : List Byte)
  /-- One index: `BCX_NEXT`. -/
  | index (v : Index)
  /-- All indices, in stream order: `BCX_ALL`. -/
  | indices (vs : List Index)
  deriving DecidableEq, Repr

/-- The response to one command (R79). -/
inductive Response where
  | ok (p : Payload)
  /-- The cursor is at the end of the stream (`BCX_NEXT` only); not an error. -/
  | endOfStream
  | fault (c : FaultCode)
  deriving DecidableEq, Repr

/-- The state of CORE: the eight items of R20 (`H`, `BUF`, `FILL`, `TOTAL`, `PHASE` inside `he`), and the model's own
record of its host interface, `inbox` and `out` (log entries 3 and 4), which no rule of the spec counts as state. -/
structure State where
  /-- `H`, `BUF`, `FILL`, `TOTAL` and `PHASE` (R21 to R25, R27). -/
  he : HashEngine
  /-- `SB[0..32]` (R28). -/
  sb : Memory
  /-- `SLEN`, the stream length in bits, 0 to 264 (R29). -/
  slen : Nat
  /-- `POS`, the extractor's cursor, 0 to `SLEN` (R30). -/
  pos : Nat
  /-- The byte sequences of the commands the host is yet to issue, oldest first (D1). -/
  inbox : List (List Byte)
  /-- The responses returned so far, oldest first (R79). -/
  out : List Response
  deriving DecidableEq, Repr

/-- Why the machine stops with a fault. These are not the spec's fault responses, after which CORE goes on (`FaultCode`):
they are accesses to a byte that does not exist (R50), which R16 says no rule makes. -/
inductive Fault where
  /-- `HE_UPDATE` or `HE_FINAL` with `FILL > 63`, against R133's 'requires'. Safe: no run from reset reaches such a state. -/
  | bufIndexOutOfRange
  /-- `BCX_NEXT` or `BCX_ALL` reading past `SLEN` or past `SB[32]`, against R161. Safe: no run from reset reaches such a state. -/
  | sbIndexOutOfRange
  deriving DecidableEq, Repr

/-- Why a step has no meaning. -/
inductive Refusal where
  /-- Raised by `exec` for an instruction without a meaning; no arm does. Safe. -/
  | notModelled (mnemonic : String)
  /-- `HE_UPDATE` or `HE_HASH` past `MAX_MSG_BYTES` (R24, R132, R138; 93 U1). Safe. -/
  | messageTooLong
  /-- `BCX_NEXT` or `BCX_ALL` when `SLEN mod 11 /= 0` (R166; 93 U3). Safe. -/
  | streamNotMultipleOf11
  /-- The step, on a byte sequence that ends before its declared length (93 U12). Safe. -/
  | incompleteCommand
  /-- The step, on a byte sequence longer than its command, formats N and D (log entry 6). Safe. -/
  | overlongCommand
  deriving DecidableEq, Repr

/-- The state right after reset (R37, R200), with nothing issued and nothing answered. -/
def State.reset : State where
  he := .live { h := hInit, buf := [], fill := 0, total := 0#64, phase := .empty }
  sb := []
  slen := 0
  pos := 0
  inbox := []
  out := []

end Sys2Proof.Machine
end

