-- ==== Sys2Proof/Machine/Flags.lean ====
section
/-! DEFINITION. CORE has no condition codes (R31); its only flag is `PHASE` (R25). -/

namespace Sys2Proof.Machine

/-- `PHASE` as one value (R25). -/
def HashEngine.phase : HashEngine → Phase
  | .live e =>
    match e.phase with
    | .empty => .empty
    | .accumulating => .accumulating
  | .finalized => .finalized

/-- The phase every `HE_UPDATE` leaves, whatever its data length (R25, D7). -/
def Live.accumulate (e : Live) : Live := { e with phase := .accumulating }

end Sys2Proof.Machine
end

