-- ==== Sys2Proof/Machine/Ops.lean ====
section
/-! DEFINITION. The named operations: memory, the host interface, faulting, and the internal operations of the Hash Engine
(R131, R133 to R136), the Stream Buffer (R150) and the extractor (R161, R163). -/

namespace Sys2Proof.Machine

/-! ### Memory (R16, R50) -/

/-- `M[a]`. -/
def Memory.read : Memory → Nat → Byte
  | [], _ => unlistedByte
  | (k, v) :: m, a => if a = k then v else Memory.read m a

/-- `M[a] <- b`, keeping the canonical form. -/
def Memory.write : Memory → Nat → Byte → Memory
  | [], a, b => if b = unlistedByte then [] else [(a, b)]
  | (k, v) :: m, a, b =>
    if a < k then (if b = unlistedByte then (k, v) :: m else (a, b) :: (k, v) :: m)
    else if a = k then (if b = unlistedByte then m else (a, b) :: m)
    else (k, v) :: Memory.write m a b

/-- `MemRead(M, a, n)` (R16). -/
def Memory.readBytes (m : Memory) (a n : Nat) : List Byte := (List.range n).map fun i => m.read (a + i)

/-- `MemWrite(M, a, len(bs), bs)` (R16). -/
def Memory.writeBytes : Memory → Nat → List Byte → Memory
  | m, _, [] => m
  | m, a, b :: bs => Memory.writeBytes (m.write a b) (a + 1) bs

/-- The canonical form of a memory of `size` bytes, from address `lo` on: addresses strictly rising and inside the memory, no
cell holding what an unlisted address reads as. -/
def Memory.wfFrom (size : Nat) : Nat → Memory → Bool
  | _, [] => true
  | lo, (k, v) :: m => decide (lo ≤ k) && decide (k < size) && decide (v ≠ unlistedByte) && Memory.wfFrom size (k + 1) m

/-- The canonical form of a memory of `size` bytes. -/
def Memory.wf (size : Nat) (m : Memory) : Bool := Memory.wfFrom size 0 m

/-! ### Host interface (R17, R79, R186) -/

/-- The byte sequence of the next command the host issues, and the state with it taken; none when nothing is issued. -/
def fetch (s : State) : Option (List Byte × State) :=
  match s.inbox with
  | [] => none
  | cmd :: rest => some (cmd, { s with inbox := rest })

/-- Put a byte sequence where `fetch` takes the next command. -/
def State.issue (s : State) (cmd : List Byte) : State := { s with inbox := cmd :: s.inbox }

/-- Return a response to the host (R79). -/
def State.respond (s : State) (r : Response) : State := { s with out := s.out ++ [r] }

/-- Replace the Hash Engine items. -/
def State.setEngine (s : State) (he : HashEngine) : State := { s with he := he }

/-- Replace `SB`, `SLEN` and `POS`. -/
def State.setStream (s : State) (sb : Memory) (slen pos : Nat) : State := { s with sb := sb, slen := slen, pos := pos }

/-- `POS <- p`. -/
def State.setPos (s : State) (p : Nat) : State := { s with pos := p }

/-- `return p`: the command ends with the response `Ok(p)` (R16). -/
def finish (p : Payload) (s : State) : Host.Outcome State Fault Refusal := .next (s.respond (.ok p))

/-- `raise c`: the command ends with the response `Fault(c)`, nothing else changes, and CORE takes the next command as if the
faulting one had not been issued (R16, R186). -/
def raise (c : FaultCode) (s : State) : Host.Outcome State Fault Refusal := .next (s.respond (.fault c))

/-- An opcode byte that is none of the eight (R80, R188). -/
def execIllegal (s : State) : Host.Outcome State Fault Refusal := raise .illegalCommand s

/-- With no command issued CORE holds its state (R199). -/
def idle (s : State) : Host.Outcome State Fault Refusal := .next s

/-- The number of a fault code (R181). -/
def FaultCode.number : FaultCode → Nat
  | .invalidSize => 1
  | .generationFailure => 2
  | .indexOutOfRange => 3
  | .useAfterFinalize => 4
  | .illegalCommand => 5
  | .badOperand => 6

/-- An index as 2 bytes, big-endian, widened with zero bits (R79). -/
def indexBytes (v : Index) : List Byte := natBytes 2 v.toNat

/-- The payload bytes of an `Ok` response (R79). -/
def Payload.bytes : Payload → List Byte
  | .nothing => []
  | .digest bs => bs
  | .stream slen bs => natBytes 2 slen ++ bs
  | .index v => indexBytes v
  | .indices vs => natBytes 1 vs.length ++ vs.flatMap indexBytes

/-- The bytes of a response: the status byte, then the payload (R79). -/
def Response.bytes : Response → List Byte
  | .ok p => 0x00#8 :: p.bytes
  | .endOfStream => [0x01#8]
  | .fault c => [BitVec.ofNat 8 (0x80 + c.number)]

/-! ### Hash Engine (R131 to R136) -/

/-- An empty instance: the state `HE_INIT` creates (R131). `BUF` holds no value (R22). -/
def Live.init : Live := { h := hInit, buf := [], fill := 0, total := 0#64, phase := .empty }

/-- The instance after its block was compressed into `H`: `FILL` is 0 and no byte of `BUF` holds a value (R22, R133). -/
def Live.afterBlock (e : Live) (H : HashWords) : Live := { e with h := H, buf := [], fill := 0 }

/-- The instance with one more byte of message or padding in `BUF` (R133). -/
def Live.buffered (e : Live) (b : Byte) : Live := { e with buf := e.buf.write e.fill b, fill := e.fill + 1 }

/-- `COMPRESS(MemRead(BUF, 0, 64))` on the block in `buf` (R115, R133). -/
def Live.compressBuf (e : Live) (buf : Memory) : Live := e.afterBlock (compress e.h (buf.readBytes 0 Config.blockBytes))

/-- `APPEND_BYTE(b)` (R133). -/
def Live.appendByte (e : Live) (b : Byte) : Live :=
  if e.fill + 1 = Config.blockBytes then e.compressBuf (e.buf.write e.fill b) else e.buffered b

/-- `APPEND_BYTE` of each byte of `data`, in order (R132). -/
def Live.appendBytes (e : Live) (data : List Byte) : Live := data.foldl Live.appendByte e

/-- `TOTAL <- TOTAL + n` (R132). -/
def Live.count (e : Live) (n : Nat) : Live := { e with total := e.total + BitVec.ofNat 64 n }

/-- What `HE_UPDATE data` does to the instance once it is accepted (R132). -/
def Live.update (e : Live) (data : List Byte) : Live := ((e.appendBytes data).count data.length).accumulate

/-- The `while FILL /= 56` loop of `PAD`, at most `n` turns (R135; at most 63 are ever needed). -/
def Live.padZeros : Nat → Live → Live
  | 0, e => e
  | n + 1, e => if e.fill = Config.padResidue then e else Live.padZeros n (e.appendByte 0x00#8)

/-- The last two lines of `PAD`: the length field, and the last block compressed (R135). -/
def Live.padLength (bitlen : BitVec 64) (e : Live) : Live :=
  e.compressBuf (e.buf.writeBytes Config.padResidue (bytesBE64 bitlen))

/-- `PAD(bitlen)` (R135). -/
def Live.pad (e : Live) (bitlen : BitVec 64) : Live :=
  Live.padLength bitlen (Live.padZeros 64 (e.appendByte 0x80#8))

/-- The digest `HE_FINAL` returns: `bitlen <- 8 * TOTAL`, `PAD(bitlen)`, `DIGEST_OF(H)` (R134). -/
def Live.digest (e : Live) : List Byte := digestOf (e.pad (8#64 * e.total)).h

/-! ### Stream Buffer and extractor (R150, R161, R163) -/

/-- Stream bit `k` of `SB` (R13, R28). -/
def streamBit (sb : Memory) (k : Nat) : Bool := (sb.read (k / 8)).getLsbD (7 - k % 8)

/-- What `SB_LOAD` makes of `SB`: the data, zeros behind, and the `8 - r` bits outside the stream cleared (R150). -/
def loadStream (nbits : Nat) (data : List Byte) : Memory :=
  let sb := Memory.writeBytes [] 0 data
  if nbits % 8 = 0 then sb else sb.write (nbits / 8) (sb.read (nbits / 8) &&& topMask (nbits % 8))

/-- `READ11(p)`: eleven stream bits, the first of weight 1024 (R161). -/
def read11 (sb : Memory) (p : Nat) : Index :=
  BitVec.ofNat 11 ((List.range 11).map fun t => (streamBit sb (p + t)).toNat * 2 ^ (10 - t)).sum

/-- The byte-level form of `READ11` (R163): a window of three bytes, shifted and masked. -/
def read11Window (sb : Memory) (p : Nat) : Index :=
  let win := (sb.read (p / 8)).toNat * 65536 + (sb.read (p / 8 + 1)).toNat * 256 + (sb.read (p / 8 + 2)).toNat
  BitVec.ofNat 11 ((win >>> (13 - p % 8)) &&& 0x7FF)

/-- The indices of a stream of `slen` bits, from stream bit 0 (R164). -/
def allIndices (sb : Memory) (slen : Nat) : List Index :=
  (List.range (slen / Config.chunkBits)).map fun j => read11 sb (Config.chunkBits * j)

end Sys2Proof.Machine
end

