-- ==== Sys2Proof/Machine/Extractor.lean ====
section
/-! DEFINITION. The Bit Chunk Extractor commands (spec/43_chunk_extractor.md). -/

namespace Sys2Proof.Machine

/-- `BCX_NEXT` (R162). -/
def execBcxNext (s : State) : Host.Outcome State Fault Refusal :=
  if s.slen % Config.chunkBits ≠ 0 then .refused .streamNotMultipleOf11
  else if s.pos = s.slen then .next (s.respond .endOfStream)
  else if s.slen < s.pos + Config.chunkBits ∨ Config.sbBits < s.slen then .fault .sbIndexOutOfRange
  else finish (.index (read11 s.sb s.pos)) (s.setPos (s.pos + Config.chunkBits))

/-- `BCX_ALL` (R164). -/
def execBcxAll (s : State) : Host.Outcome State Fault Refusal :=
  if s.slen % Config.chunkBits ≠ 0 then .refused .streamNotMultipleOf11
  else if Config.sbBits < s.slen then .fault .sbIndexOutOfRange
  else finish (.indices (allIndices s.sb s.slen)) (s.setPos s.slen)

end Sys2Proof.Machine
end

