-- ==== Sys2Proof/Machine/HashEngine.lean ====
section
/-! DEFINITION. The Hash Engine commands (spec/41_hash_commands.md). -/

namespace Sys2Proof.Machine

/-- `HE_INIT` (R131): a new empty instance, in any phase. -/
def execHeInit (s : State) : Host.Outcome State Fault Refusal :=
  finish .nothing (s.setEngine (.live Live.init))

/-- `HE_UPDATE data` (R132). -/
def execHeUpdate (data : List Byte) (s : State) : Host.Outcome State Fault Refusal :=
  match s.he with
  | .finalized => raise .useAfterFinalize s
  | .live e =>
    if Config.maxMsgBytes < e.total.toNat + data.length then .refused .messageTooLong
    else if Config.blockBytes ≤ e.fill then .fault .bufIndexOutOfRange
    else finish .nothing (s.setEngine (.live (e.update data)))

/-- `HE_FINAL` (R134). -/
def execHeFinal (s : State) : Host.Outcome State Fault Refusal :=
  match s.he with
  | .finalized => raise .useAfterFinalize s
  | .live e =>
    if Config.blockBytes ≤ e.fill then .fault .bufIndexOutOfRange
    else finish (.digest e.digest) (s.setEngine .finalized)

/-- `HE_HASH data` (R138): `HE_INIT`, `HE_UPDATE data`, `HE_FINAL` as one step, in any phase. -/
def execHeHash (data : List Byte) (s : State) : Host.Outcome State Fault Refusal :=
  if Config.maxMsgBytes < data.length then .refused .messageTooLong
  else finish (.digest (Live.init.update data).digest) (s.setEngine .finalized)

end Sys2Proof.Machine
end

