-- ==== Sys2Proof/Machine/StreamBuffer.lean ====
section
/-! DEFINITION. The Stream Buffer and Checksum Appender commands (spec/42_checksum_appender.md). -/

namespace Sys2Proof.Machine

/-- `SB_LOAD nbits data` (R150, R189). -/
def execSbLoad (nbits : Nat) (data : List Byte) (s : State) : Host.Outcome State Fault Refusal :=
  if streamOperandsOk nbits data then finish .nothing (s.setStream (loadStream nbits data) nbits 0)
  else raise .badOperand s

/-- The checksum byte `CS_APPEND` writes for `L` entropy bytes in `SB`: the top `CS` bits of the first digest byte, hashed
with a private instance whose whole effect is `SHA-256(entropy)` (R151, R152). -/
def checksumByte (sb : Memory) (L : Nat) : Byte :=
  (sha256 (sb.readBytes 0 L)).getD 0 0 &&& topMask (checksumBits L)

/-- `SB` after `CS_APPEND` on `L` entropy bytes (R152). -/
def appendChecksum (sb : Memory) (L : Nat) : Memory := sb.write L (checksumByte sb L)

/-- `SLEN` after `CS_APPEND` on `L` entropy bytes (R75, R152). -/
def combinedBits (L : Nat) : Nat := 8 * L + checksumBits L

/-- `CS_APPEND` (R152, R183). -/
def execCsAppend (s : State) : Host.Outcome State Fault Refusal :=
  if isEntropyLength s.slen then
    let L := s.slen / 8
    let sb := appendChecksum s.sb L
    finish (.stream (combinedBits L) (sb.readBytes 0 (ceilBytes (combinedBits L)))) (s.setStream sb (combinedBits L) 0)
  else raise .invalidSize s

end Sys2Proof.Machine
end

