-- ==== Sys2Proof/Machine/Dispatch.lean ====
section
/-! DEFINITION. One arm per command: each calls its meaning. -/

namespace Sys2Proof.Machine

def exec (i : Instr) (s : State) : Host.Outcome State Fault Refusal :=
  match i with
  | .heInit => Sys2Proof.Machine.execHeInit s
  | .heUpdate data => Sys2Proof.Machine.execHeUpdate data s
  | .heFinal => Sys2Proof.Machine.execHeFinal s
  | .heHash data => Sys2Proof.Machine.execHeHash data s
  | .sbLoad nbits data => Sys2Proof.Machine.execSbLoad nbits data s
  | .csAppend => Sys2Proof.Machine.execCsAppend s
  | .bcxNext => Sys2Proof.Machine.execBcxNext s
  | .bcxAll => Sys2Proof.Machine.execBcxAll s

end Sys2Proof.Machine
end

