-- ==== Sys2Proof/Machine/Step.lean ====
section
/-! DEFINITION. One step: the host's next command is taken, decoded and executed (R17), in the order of checks of R191. -/

namespace Sys2Proof.Machine

/-- One command, or nothing when none is issued. -/
def step (s : State) : Host.Outcome State Fault Refusal :=
  match fetch s with
  | none => idle s
  | some (cmd, t) =>
    match decode cmd with
    | .command i => exec i t
    | .illegal _ => execIllegal t
    | .incomplete => .refused .incompleteCommand
    | .overlong => .refused .overlongCommand

/-- The state with the command whose first `nbits` bits are `w` issued next, before what the host already had waiting. -/
def State.withFetchWord (s : State) (nbits w : Nat) : State := s.issue (tableCommand nbits w)

end Sys2Proof.Machine
end

