-- ==== Sys2Proof/Safety.lean ====
section
/-! DEFINITION. The terms statements about CORE use: the invariant of its states, the message a live engine holds, and
sequences of commands. -/

namespace Sys2Proof.Machine

/-- `BUF[0 .. FILL-1]`: the message bytes not yet compressed (R22). -/
def Live.pending (e : Live) : List Byte := e.buf.readBytes 0 e.fill

/-- What every command keeps of a live engine (R22 to R25). -/
structure Live.Inv (e : Live) : Prop where
  /-- `BUF` is in canonical form and lists no byte outside its 64 (R50). -/
  buf_wf : e.buf.wf Config.blockBytes = true
  /-- The model lists no byte of `BUF[FILL..63]`: they hold no value (R22, log entry 1). -/
  buf_clear : ∀ a, e.fill ≤ a → e.buf.read a = unlistedByte
  /-- `0 <= FILL <= 63` between commands (R23). -/
  fill_lt : e.fill < Config.blockBytes
  /-- `FILL = TOTAL mod 64` (R23). -/
  fill_total : e.fill = e.total.toNat % Config.blockBytes
  /-- `TOTAL <= MAX_MSG_BYTES` (R24). -/
  total_le : e.total.toNat ≤ Config.maxMsgBytes
  /-- In `Empty` the engine is as `HE_INIT` and reset leave it (R25, R131). -/
  empty_init : e.phase = .empty → e = Live.init

/-- What every command keeps of the state (R22 to R30). -/
structure State.Inv (s : State) : Prop where
  he_inv : ∀ e, s.he = .live e → e.Inv
  /-- `SB` is in canonical form and lists no byte outside its 33 (R50). -/
  sb_wf : s.sb.wf Config.sbBytes = true
  /-- `0 <= SLEN <= 264` (R29). -/
  slen_le : s.slen ≤ Config.sbBits
  /-- Every stream bit `k` with `SLEN <= k < 264` is 0 (R28). -/
  sb_clear : ∀ k, s.slen ≤ k → k < Config.sbBits → streamBit s.sb k = false
  /-- `0 <= POS <= SLEN` (R30). -/
  pos_le : s.pos ≤ s.slen
  /-- `POS` is a multiple of 11 (R30). -/
  pos_mod : s.pos % Config.chunkBits = 0

/-- The engine holds the message `m`: its whole blocks are in `H`, the rest of it in `BUF`, its length in `TOTAL`
(R22 to R24, R132). -/
structure Live.Holds (e : Live) (m : List Byte) : Prop where
  h_eq : e.h = compressBlocks (m.length / 64) hInit m
  buf_wf : e.buf.wf Config.blockBytes = true
  fill_eq : e.fill = m.length % 64
  pending_eq : e.pending = m.drop (64 * (m.length / 64))
  total_eq : e.total.toNat = m.length

/-- The commands of the Hash Engine half (R38). -/
def isHashCommand : Instr → Bool
  | .heInit => true
  | .heUpdate _ => true
  | .heFinal => true
  | .heHash _ => true
  | .sbLoad _ _ => false
  | .csAppend => false
  | .bcxNext => false
  | .bcxAll => false

/-- A sequence of commands, each on the state the one before it left; it ends at the first that gives no next state. -/
def execSeq : List Instr → State → Host.Outcome State Fault Refusal
  | [], s => .next s
  | i :: is, s =>
    match exec i s with
    | .next t => execSeq is t
    | .fault f => .fault f
    | .refused r => .refused r

/-- Bit `k` of the stream a sequence of indices spells, each index most significant bit first (R165). -/
def indexBit (vs : List Index) (k : Nat) : Bool := (vs.getD (k / 11) 0).getLsbD (10 - k % 11)

/-- The first 64 primes, in order: the terms R110 and R111 describe the constants in. -/
def firstPrimes : List Nat :=
  [2, 3, 5, 7, 11, 13, 17, 19, 23, 29, 31, 37, 41, 43, 47, 53,
   59, 61, 67, 71, 73, 79, 83, 89, 97, 101, 103, 107, 109, 113, 127, 131,
   137, 139, 149, 151, 157, 163, 167, 173, 179, 181, 191, 193, 197, 199, 211, 223,
   227, 229, 233, 239, 241, 251, 257, 263, 269, 271, 277, 281, 283, 293, 307, 311]

end Sys2Proof.Machine
end

