-- ==== Sys2Proof/Certificates/Slice0/Obligations.lean ====
section
/-! DEFINITION. The statements about CORE. A response is read off as what a command appends to `out`, and the commands a host
is yet to issue stand in `inbox`: both are the model's record of the host interface (log entries 3 and 4). A premise
`Inv` or `wf` rules out states no run reaches; that every step keeps it is `Obligations.StepKeepsInvariant`. -/

open Sys2Proof Sys2Proof.Machine

/-! ### Reset and the invariant -/

/-- R37, R110: the value of every item after reset, the eight words of `H` spelled out (`BUF` has none to state). -/
def Obligations.ResetValues : Prop :=
  ∃ e, State.reset.he = .live e ∧ State.reset.he.phase = .empty ∧
    e.h.h0 = 0x6A09E667#32 ∧ e.h.h1 = 0xBB67AE85#32 ∧ e.h.h2 = 0x3C6EF372#32 ∧ e.h.h3 = 0xA54FF53A#32 ∧
    e.h.h4 = 0x510E527F#32 ∧ e.h.h5 = 0x9B05688C#32 ∧ e.h.h6 = 0x1F83D9AB#32 ∧ e.h.h7 = 0x5BE0CD19#32 ∧ e.fill = 0 ∧ e.total = 0#64 ∧
    (∀ a, a < 33 → State.reset.sb.read a = 0x00#8) ∧ State.reset.slen = 0 ∧ State.reset.pos = 0

/-- R22 to R30: the state after reset meets the invariant. -/
def Obligations.InvariantAtReset : Prop := State.reset.Inv

/-- R22 to R30: every step keeps the invariant, from any state that meets it. Two of its clauses are the model's choice, log
entry 1: no byte of `BUF[FILL..63]` is listed, and memories are canonical. -/
def Obligations.StepKeepsInvariant : Prop := ∀ s t : State, s.Inv → step s = .next t → t.Inv

/-- R16: no access falls outside `BUF` or `SB`, so the machine never stops with a fault (log entry 7). -/
def Obligations.StepNeverFaults : Prop := ∀ (s : State) (f : Fault), s.Inv → step s ≠ .fault f

/-! ### Encoding and the step -/

/-- R76 to R78: a well-formed command decodes from its encoding, with every operand at every value. -/
def Obligations.DecodeOfEncode : Prop := ∀ i : Instr, i.wellFormed = true → decode (encode i) = .command i

/-- R76 to R78: a byte sequence that decodes is the encoding of the command it decodes to, which is well formed. That no
longer sequence of format `N` or `D` decodes is the model's choice, log entry 6: no rule speaks of one. -/
def Obligations.EncodeOfDecode : Prop :=
  ∀ (bs : List Byte) (i : Instr), decode bs = .command i → i.wellFormed = true ∧ encode i = bs

/-- R71, R76, R77: words written out from the tables (V69 to V80). -/
def Obligations.ExampleWordsDecode : Prop :=
  decode [0x00#8] = .command .heInit ∧
  decode [0x01#8, 0, 0, 0, 0, 0, 0, 0, 3, 0x61#8, 0x62#8, 0x63#8] = .command (.heUpdate [0x61#8, 0x62#8, 0x63#8]) ∧
  decode [0x10#8, 0x00#8, 0x0C#8, 0xFF#8, 0xF0#8] = .command (.sbLoad 12 [0xFF#8, 0xF0#8]) ∧
  decode [0x11#8] = .command .csAppend ∧ decode [0x21#8] = .command .bcxAll

/-- R17: when the bytes issued next decode to a command, the step is that command on the state with those bytes taken
(`inbox` is the model's choice, log entry 3); so it is for the encoding of a well-formed command. -/
def Obligations.StepRunsTheCommand : Prop :=
  (∀ (s : State) (cmd : List Byte) (more : List (List Byte)) (i : Instr),
    s.inbox = cmd :: more → decode cmd = .command i → step s = exec i { s with inbox := more }) ∧
  (∀ (s : State) (more : List (List Byte)) (i : Instr),
    i.wellFormed = true → s.inbox = encode i :: more → step s = exec i { s with inbox := more })

/-- R80, R188: an opcode byte that is none of the eight returns `Fault(IllegalCommand)` and changes nothing, whatever follows it. -/
def Obligations.IllegalOpcodeFaults : Prop :=
  ∀ (s : State) (op : Byte) (rest : List Byte) (more : List (List Byte)),
    op ∉ [0x00#8, 0x01#8, 0x02#8, 0x03#8, 0x10#8, 0x11#8, 0x20#8, 0x21#8] → s.inbox = (op :: rest) :: more →
    step s = .next { s with inbox := more, out := s.out ++ [.fault .illegalCommand] }

/-- R78 and 93 U12: a byte sequence that ends before the length its command declares is refused. For `SB_LOAD` it is the
model's reading, log entry 6, that U12 comes before the `BadOperand` of R81 and R189. -/
def Obligations.IncompleteSequenceRefused : Prop :=
  ∀ (s : State) (i : Instr) (n : Nat) (more : List (List Byte)), i.wellFormed = true →
    (∀ nbits data, i = .sbLoad nbits data → data.length = (nbits + 7) / 8) →
    n < (encode i).length → s.inbox = (encode i).take n :: more → step s = .refused .incompleteCommand

/-- R199: with nothing issued the state is held (that this is a step of the model is log entry 3). -/
def Obligations.NothingIssuedHoldsState : Prop := ∀ s : State, s.inbox = [] → step s = .next s

/-- R17, R59: running the machine on the encodings of a sequence of commands is executing the commands one after another. -/
def Obligations.RunOfEncodedCommands : Prop :=
  ∀ (is : List Instr) (s : State) (more : List (List Byte)), (∀ i ∈ is, i.wellFormed = true) →
    s.inbox = is.map encode ++ more → core.run is.length s = execSeq is { s with inbox := more }

/-! ### Word functions and the compression function -/

/-- R102, R103: the bits of a rotation and of a shift; a shift divides by `2^n` and its top `n` bits are 0. -/
def Obligations.RotateAndShiftBits : Prop :=
  ∀ (x : Word) (n i : Nat), 0 < n → n < 32 → i < 32 →
    (rotr x n).getLsbD i = x.getLsbD ((i + n) % 32) ∧
    (shr x n).toNat = x.toNat / 2 ^ n ∧ (32 - n ≤ i → (shr x n).getLsbD i = false)

/-- R104, R105: each bit of `Ch` is chosen by the bit of `x`; each bit of `Maj` is the value two of the operands have. -/
def Obligations.ChooseAndMajorityBits : Prop :=
  ∀ (x y z : Word) (i : Nat), i < 32 →
    (ch x y z).getLsbD i = (if x.getLsbD i then y.getLsbD i else z.getLsbD i) ∧
    (maj x y z).getLsbD i =
      decide (2 ≤ (x.getLsbD i).toNat + (y.getLsbD i).toNat + (z.getLsbD i).toNat)

/-- R106 to R109: the bits of the four sigma functions. -/
def Obligations.SigmaFunctionBits : Prop :=
  ∀ (x : Word) (i : Nat), i < 32 →
    (bsig0 x).getLsbD i =
      ((x.getLsbD ((i + 2) % 32) ^^ x.getLsbD ((i + 13) % 32)) ^^ x.getLsbD ((i + 22) % 32)) ∧
    (bsig1 x).getLsbD i =
      ((x.getLsbD ((i + 6) % 32) ^^ x.getLsbD ((i + 11) % 32)) ^^ x.getLsbD ((i + 25) % 32)) ∧
    (ssig0 x).getLsbD i = ((x.getLsbD ((i + 7) % 32) ^^ x.getLsbD ((i + 18) % 32)) ^^ x.getLsbD (i + 3)) ∧
    (ssig1 x).getLsbD i = ((x.getLsbD ((i + 17) % 32) ^^ x.getLsbD ((i + 19) % 32)) ^^ x.getLsbD (i + 10))

/-- R112: the schedule has 64 words: 16 big-endian words of the block, then the recurrence. -/
def Obligations.ScheduleWords : Prop :=
  ∀ B : List Byte, (schedule B).length = 64 ∧
    (∀ i, i < 16 → (schedule B).getD i 0 =
      be32 (B.getD (4 * i) 0) (B.getD (4 * i + 1) 0) (B.getD (4 * i + 2) 0) (B.getD (4 * i + 3) 0)) ∧
    (∀ i, 16 ≤ i → i < 64 → (schedule B).getD i 0 =
      ssig1 ((schedule B).getD (i - 2) 0) + (schedule B).getD (i - 7) 0 + ssig0 ((schedule B).getD (i - 15) 0) +
        (schedule B).getD (i - 16) 0)

/-- R111, R113 to R115: `COMPRESS` starts the working variables from `H`, runs rounds 0 to 63 in order with the constants
spelled out here, and adds each working variable to the word of `H` the block started from. -/
def Obligations.RoundsThenFeedForward : Prop :=
  (∀ (H : HashWords) (B : List Byte), ∃ v, v = rounds 64 (workVars H) (schedule B) ∧
    (compress H B).h0 = H.h0 + v.a ∧ (compress H B).h1 = H.h1 + v.b ∧ (compress H B).h2 = H.h2 + v.c ∧
    (compress H B).h3 = H.h3 + v.d ∧ (compress H B).h4 = H.h4 + v.e ∧ (compress H B).h5 = H.h5 + v.f ∧
    (compress H B).h6 = H.h6 + v.g ∧ (compress H B).h7 = H.h7 + v.h) ∧
  (∀ H : HashWords, (workVars H).a = H.h0 ∧ (workVars H).b = H.h1 ∧ (workVars H).c = H.h2 ∧ (workVars H).d = H.h3 ∧
    (workVars H).e = H.h4 ∧ (workVars H).f = H.h5 ∧ (workVars H).g = H.h6 ∧ (workVars H).h = H.h7) ∧
  (∀ (v : WorkVars) (W : List Word), rounds 0 v W = v) ∧
  (∀ (n : Nat) (v : WorkVars) (W : List Word), rounds (n + 1) v W = round n (rounds n v W) W) ∧
  (∀ (t : Nat) (v : WorkVars) (W : List Word), ∃ t1 t2 : Word,
    t1 = v.h + bsig1 v.e + ch v.e v.f v.g + kTable.getD t 0 + W.getD t 0 ∧ t2 = bsig0 v.a + maj v.a v.b v.c ∧
    round t v W = { a := t1 + t2, b := v.a, c := v.b, d := v.c, e := v.d + t1, f := v.e, g := v.f, h := v.g }) ∧
  kTable =
      [0x428A2F98#32, 0x71374491#32, 0xB5C0FBCF#32, 0xE9B5DBA5#32,
       0x3956C25B#32, 0x59F111F1#32, 0x923F82A4#32, 0xAB1C5ED5#32,
       0xD807AA98#32, 0x12835B01#32, 0x243185BE#32, 0x550C7DC3#32,
       0x72BE5D74#32, 0x80DEB1FE#32, 0x9BDC06A7#32, 0xC19BF174#32,
       0xE49B69C1#32, 0xEFBE4786#32, 0x0FC19DC6#32, 0x240CA1CC#32,
       0x2DE92C6F#32, 0x4A7484AA#32, 0x5CB0A9DC#32, 0x76F988DA#32,
       0x983E5152#32, 0xA831C66D#32, 0xB00327C8#32, 0xBF597FC7#32,
       0xC6E00BF3#32, 0xD5A79147#32, 0x06CA6351#32, 0x14292967#32,
       0x27B70A85#32, 0x2E1B2138#32, 0x4D2C6DFC#32, 0x53380D13#32,
       0x650A7354#32, 0x766A0ABB#32, 0x81C2C92E#32, 0x92722C85#32,
       0xA2BFE8A1#32, 0xA81A664B#32, 0xC24B8B70#32, 0xC76C51A3#32,
       0xD192E819#32, 0xD6990624#32, 0xF40E3585#32, 0x106AA070#32,
       0x19A4C116#32, 0x1E376C08#32, 0x2748774C#32, 0x34B0BCB5#32,
       0x391C0CB3#32, 0x4ED8AA4A#32, 0x5B9CCA4F#32, 0x682E6FF3#32,
       0x748F82EE#32, 0x78A5636F#32, 0x84C87814#32, 0x8CC70208#32,
       0x90BEFFFA#32, 0xA4506CEB#32, 0xBEF9A3F7#32, 0xC67178F2#32]

/-- R136: the digest is 32 bytes, each word of `H` as 4 bytes, most significant first. -/
def Obligations.DigestIsBigEndian : Prop :=
  ∀ H : HashWords, (digestOf H).length = 32 ∧
    ∀ (i : Nat) (w : Word), [H.h0, H.h1, H.h2, H.h3, H.h4, H.h5, H.h6, H.h7][i]? = some w →
      beNat (((digestOf H).drop (4 * i)).take 4) = w.toNat ∧
      ∀ j, j < 4 → ((digestOf H).getD (4 * i + j) 0).toNat = w.toNat / 256 ^ (3 - j) % 256

/-- R72: the padded message: the message, 0x80, the zeros up to 56 modulo 64, the bit length of the message. -/
def Obligations.PaddedMessageLayout : Prop :=
  ∀ m : List Byte, m.length ≤ 2 ^ 61 - 1 → ∃ z, z < 64 ∧ (m.length + 1 + z) % 64 = 56 ∧
    (padded m).length = m.length + 1 + z + 8 ∧ (padded m).length % 64 = 0 ∧
    (padded m).take m.length = m ∧ (padded m).getD m.length 0 = 0x80#8 ∧
    (∀ k, k < z → (padded m).getD (m.length + 1 + k) 0 = 0x00#8) ∧
    beNat ((padded m).drop (m.length + 1 + z)) = 8 * m.length

/-- R135: `PAD` compresses one block when `FILL <= 55` and two otherwise, with these contents. -/
def Obligations.PadRunsOneOrTwoBlocks : Prop :=
  ∀ (e : Live) (bitlen : BitVec 64), e.buf.wf 64 = true → e.fill < 64 →
    (e.pad bitlen).h =
      if e.fill ≤ 55 then compress e.h (e.pending ++ [0x80#8] ++ zeros (55 - e.fill) ++ bytesBE64 bitlen)
      else compress (compress e.h (e.pending ++ [0x80#8] ++ zeros (63 - e.fill))) (zeros 56 ++ bytesBE64 bitlen)

/-! ### Hash Engine commands -/

/-- R131: `HE_INIT` creates an empty instance in any phase, and twice is as once. -/
def Obligations.HeInitCreatesEmptyInstance : Prop :=
  ∀ s : State, ∃ t e, exec .heInit s = .next t ∧ t.he = .live e ∧ e.h = hInit ∧ e.fill = 0 ∧ e.total = 0#64 ∧
    t.he.phase = .empty ∧ t.out = s.out ++ [.ok .nothing] ∧
    t.sb = s.sb ∧ t.slen = s.slen ∧ t.pos = s.pos ∧ t.inbox = s.inbox ∧
    ∃ u, exec .heInit t = .next u ∧ u.he = t.he ∧ u.sb = t.sb ∧ u.slen = t.slen ∧ u.pos = t.pos

/-- R202: `HE_INIT` puts `H`, `FILL`, `TOTAL` and `PHASE` in their reset values and nothing else changes; right after reset it
changes none of the items. -/
def Obligations.HeInitAsReset : Prop :=
  ∀ s : State, ∃ t e r, exec .heInit s = .next t ∧ t.he = .live e ∧ State.reset.he = .live r ∧
    e.h = r.h ∧ e.fill = r.fill ∧ e.total = r.total ∧ t.he.phase = State.reset.he.phase ∧
    t.sb = s.sb ∧ t.slen = s.slen ∧ t.pos = s.pos

/-- R132, R133: `HE_UPDATE` compresses the whole blocks of what was buffered followed by `data`, keeps the rest in `BUF`, counts
the data and leaves `Accumulating`; nothing else changes. -/
def Obligations.HeUpdateAbsorbsData : Prop :=
  ∀ (s : State) (e : Live) (data : List Byte), s.he = .live e → e.Inv → e.total.toNat + data.length ≤ 2 ^ 61 - 1 →
    ∃ t e', exec (.heUpdate data) s = .next t ∧ t.he = .live e' ∧
      e'.h = compressBlocks ((e.fill + data.length) / 64) e.h (e.pending ++ data) ∧
      e'.fill = (e.fill + data.length) % 64 ∧
      e'.pending = (e.pending ++ data).drop (64 * ((e.fill + data.length) / 64)) ∧
      e'.total.toNat = e.total.toNat + data.length ∧ t.he.phase = .accumulating ∧
      t.out = s.out ++ [.ok .nothing] ∧
      t.sb = s.sb ∧ t.slen = s.slen ∧ t.pos = s.pos ∧ t.inbox = s.inbox

/-- R132: data that does not fill the block is only buffered: `H` is unchanged, the bytes of `BUF` below `FILL` are
unchanged, and the data stand behind them. -/
def Obligations.HeUpdateOnlyBuffers : Prop :=
  ∀ (s t : State) (e : Live) (data : List Byte), s.he = .live e → e.Inv → data.length < 64 - e.fill →
    exec (.heUpdate data) s = .next t → ∃ e', t.he = .live e' ∧ e'.h = e.h ∧
      (∀ a, a < e.fill → e'.buf.read a = e.buf.read a) ∧
      (∀ i, i < data.length → e'.buf.read (e.fill + i) = data.getD i 0)

/-- R132, R139: two updates are as one update with the concatenated data. -/
def Obligations.HeUpdateSplits : Prop :=
  ∀ (s : State) (e : Live) (d d' : List Byte), s.he = .live e → e.Inv →
    e.total.toNat + (d ++ d').length ≤ 2 ^ 61 - 1 →
    ∃ t u, execSeq [.heUpdate d, .heUpdate d'] s = .next t ∧ exec (.heUpdate (d ++ d')) s = .next u ∧
      t.he = u.he ∧ t.sb = u.sb ∧ t.slen = u.slen ∧ t.pos = u.pos

/-- R134: `HE_FINAL` on a live engine returns 32 bytes and leaves `Finalized`; nothing else changes. -/
def Obligations.HeFinalCompletes : Prop :=
  ∀ (s : State) (e : Live), s.he = .live e → e.fill < 64 →
    ∃ t bs, exec .heFinal s = .next t ∧ t.he = .finalized ∧ bs.length = 32 ∧ t.out = s.out ++ [.ok (.digest bs)] ∧
      t.sb = s.sb ∧ t.slen = s.slen ∧ t.pos = s.pos ∧ t.inbox = s.inbox

/-- R134, R137: when the engine holds the message `m`, `HE_FINAL` returns `SHA-256(m)`. -/
def Obligations.HeFinalReturnsDigest : Prop :=
  ∀ (s : State) (e : Live) (m : List Byte), s.he = .live e → e.Holds m → m.length ≤ 2 ^ 61 - 1 →
    ∃ t, exec .heFinal s = .next t ∧ t.he = .finalized ∧ t.out = s.out ++ [.ok (.digest (sha256 m))] ∧
      t.sb = s.sb ∧ t.slen = s.slen ∧ t.pos = s.pos ∧ t.inbox = s.inbox

/-- R138: `HE_HASH` returns `SHA-256(data)` in any phase and leaves `Finalized`; nothing else changes. -/
def Obligations.HeHashReturnsDigest : Prop :=
  ∀ (s : State) (data : List Byte), data.length ≤ 2 ^ 61 - 1 →
    ∃ t, exec (.heHash data) s = .next t ∧ t.he = .finalized ∧ t.out = s.out ++ [.ok (.digest (sha256 data))] ∧
      t.sb = s.sb ∧ t.slen = s.slen ∧ t.pos = s.pos ∧ t.inbox = s.inbox

/-- R83, R138: `HE_HASH` is `HE_INIT`, `HE_UPDATE`, `HE_FINAL` as one step: the same digest, the same state. -/
def Obligations.HeHashIsItsSequence : Prop :=
  ∀ (s : State) (data : List Byte), data.length ≤ 2 ^ 61 - 1 →
    ∃ t u p, execSeq [.heInit, .heUpdate data, .heFinal] s = .next t ∧ exec (.heHash data) s = .next u ∧
      t.he = u.he ∧ t.sb = u.sb ∧ t.slen = u.slen ∧ t.pos = u.pos ∧
      t.out = s.out ++ [.ok .nothing, .ok .nothing, .ok p] ∧ u.out = s.out ++ [.ok p]

/-- R137: whatever the phase before, `HE_INIT`, any number of `HE_UPDATE` and `HE_FINAL` return the digest of the
concatenated data. -/
def Obligations.StreamedDigest : Prop :=
  ∀ (s : State) (ds : List (List Byte)), ds.flatten.length ≤ 2 ^ 61 - 1 →
    ∃ t, execSeq (.heInit :: (ds.map .heUpdate ++ [.heFinal])) s = .next t ∧ t.he = .finalized ∧
      t.out = s.out ++ List.replicate (ds.length + 1) (.ok .nothing) ++ [.ok (.digest (sha256 ds.flatten))] ∧
      t.sb = s.sb ∧ t.slen = s.slen ∧ t.pos = s.pos ∧ t.inbox = s.inbox

/-- R139: any split of a byte sequence into pieces gives the digest of the one-shot command on the whole. -/
def Obligations.IncrementalEqualsOneShot : Prop :=
  ∀ (s s' : State) (ds : List (List Byte)), ds.flatten.length ≤ 2 ^ 61 - 1 →
    ∃ t u bs, execSeq (.heInit :: (ds.map .heUpdate ++ [.heFinal])) s = .next t ∧
      exec (.heHash ds.flatten) s' = .next u ∧
      t.out.getLast? = some (.ok (.digest bs)) ∧ u.out.getLast? = some (.ok (.digest bs))

/-- R187: `HE_UPDATE` and `HE_FINAL` on a finalized engine return `UseAfterFinalize` and change nothing. -/
def Obligations.FinalizedEngineFaults : Prop :=
  ∀ (s : State) (data : List Byte), s.he = .finalized →
    exec (.heUpdate data) s = .next { s with out := s.out ++ [.fault .useAfterFinalize] } ∧
    exec .heFinal s = .next { s with out := s.out ++ [.fault .useAfterFinalize] }

/-- R24, R132, R138 and 93 U1: a message past 2^61 - 1 bytes is refused. -/
def Obligations.LongMessageRefused : Prop :=
  (∀ (s : State) (e : Live) (data : List Byte), s.he = .live e → 2 ^ 61 - 1 < e.total.toNat + data.length →
    exec (.heUpdate data) s = .refused .messageTooLong) ∧
  (∀ (s : State) (data : List Byte), 2 ^ 61 - 1 < data.length → exec (.heHash data) s = .refused .messageTooLong)

/-! ### Stream Buffer and Checksum Appender commands -/

/-- R150: well-formed operands replace the whole stream, clear every bit behind it and rewind the cursor; the Hash Engine is
unchanged. -/
def Obligations.SbLoadStoresStream : Prop :=
  ∀ (s : State) (nbits : Nat) (data : List Byte), nbits ≤ 264 → data.length = (nbits + 7) / 8 →
    ∃ t, exec (.sbLoad nbits data) s = .next t ∧ t.slen = nbits ∧ t.pos = 0 ∧
      (∀ k, k < nbits → streamBit t.sb k = bitOf data k) ∧
      (∀ k, nbits ≤ k → k < 264 → streamBit t.sb k = false) ∧ t.sb.wf 33 = true ∧
      t.he = s.he ∧ t.out = s.out ++ [.ok .nothing] ∧ t.inbox = s.inbox

/-- R189: `SB_LOAD` returns `BadOperand` for `nbits > 264` or a wrong data length and changes nothing; no other command
returns it. -/
def Obligations.BadOperandOnlyFromSbLoad : Prop :=
  (∀ (s : State) (nbits : Nat) (data : List Byte), 264 < nbits ∨ data.length ≠ (nbits + 7) / 8 →
    exec (.sbLoad nbits data) s = .next { s with out := s.out ++ [.fault .badOperand] }) ∧
  (∀ (i : Instr) (s t : State), exec i s = .next t → t.out = s.out ++ [.fault .badOperand] →
    ∃ nbits data, i = .sbLoad nbits data ∧ (264 < nbits ∨ data.length ≠ (nbits + 7) / 8))

/-- R151 to R153: on `L` entropy bytes `CS_APPEND` stores to byte `L` alone, appends the first `L / 4` bits of their SHA-256 digest,
grows the stream to `8L + L/4` bits, a multiple of 11, rewinds the cursor and returns the stream; the Hash Engine is
unchanged. -/
def Obligations.CsAppendAppendsChecksum : Prop :=
  ∀ (s : State) (L : Nat), L ∈ [16, 20, 24, 28, 32] → s.slen = 8 * L → s.sb.wf 33 = true →
    ∃ t, exec .csAppend s = .next t ∧ t.slen = 8 * L + L / 4 ∧ t.slen % 11 = 0 ∧ t.pos = 0 ∧
      (∀ a, a ≠ L → t.sb.read a = s.sb.read a) ∧
      (∀ j, j < L / 4 → streamBit t.sb (8 * L + j) = bitOf (sha256 (s.sb.readBytes 0 L)) j) ∧
      (∀ j, L / 4 ≤ j → j < 8 → streamBit t.sb (8 * L + j) = false) ∧
      t.he = s.he ∧ t.out = s.out ++ [.ok (.stream t.slen (t.sb.readBytes 0 ((t.slen + 7) / 8)))] ∧ t.inbox = s.inbox

/-- R183: a stream that is no entropy of an admitted length gives `InvalidSize`, and nothing changes. -/
def Obligations.CsAppendInvalidSize : Prop :=
  ∀ s : State, s.slen ∉ [128, 160, 192, 224, 256] →
    exec .csAppend s = .next { s with out := s.out ++ [.fault .invalidSize] }

/-- R211: `CS_APPEND` is one-time: whatever the first one did, a second one right after it gives `InvalidSize`. -/
def Obligations.CsAppendOnlyOnce : Prop :=
  ∀ s t : State, exec .csAppend s = .next t →
    exec .csAppend t = .next { t with out := t.out ++ [.fault .invalidSize] }

/-! ### Bit Chunk Extractor commands -/

/-- R161, R162: `BCX_NEXT` returns the eleven stream bits at the cursor, the first as bit 10, and advances the cursor by 11;
nothing else changes. -/
def Obligations.BcxNextReadsEleven : Prop :=
  ∀ s : State, s.slen % 11 = 0 → s.pos + 11 ≤ s.slen → s.slen ≤ 264 →
    ∃ t v, exec .bcxNext s = .next t ∧ t.pos = s.pos + 11 ∧ t.out = s.out ++ [.ok (.index v)] ∧
      (∀ j, j < 11 → v.getLsbD (10 - j) = streamBit s.sb (s.pos + j)) ∧
      t.sb = s.sb ∧ t.slen = s.slen ∧ t.he = s.he ∧ t.inbox = s.inbox

/-- R162: at the end of the stream `BCX_NEXT` returns `End` and changes nothing. -/
def Obligations.BcxNextEndOfStream : Prop :=
  ∀ s : State, s.slen % 11 = 0 → s.pos = s.slen → exec .bcxNext s = .next { s with out := s.out ++ [.endOfStream] }

/-- R166: both extractor commands are refused when `SLEN` is no multiple of 11. -/
def Obligations.ExtractorRefusesOtherLengths : Prop :=
  ∀ s : State, s.slen % 11 ≠ 0 →
    exec .bcxNext s = .refused .streamNotMultipleOf11 ∧ exec .bcxAll s = .refused .streamNotMultipleOf11

/-- R164, R165: `BCX_ALL` returns `SLEN / 11` indices that spell the stream bit for bit, whatever the cursor was, and leaves the
cursor at the end; nothing else changes. -/
def Obligations.BcxAllReturnsIndices : Prop :=
  ∀ s : State, s.slen % 11 = 0 → s.slen ≤ 264 →
    ∃ t vs, exec .bcxAll s = .next t ∧ t.out = s.out ++ [.ok (.indices vs)] ∧ vs.length = s.slen / 11 ∧
      (∀ k, k < s.slen → indexBit vs k = streamBit s.sb k) ∧ t.pos = s.slen ∧
      t.sb = s.sb ∧ t.slen = s.slen ∧ t.he = s.he ∧ t.inbox = s.inbox

/-- R164: from the start of the stream, `BCX_NEXT` until `End` returns one by one the indices `BCX_ALL` returns at once, and both
leave the same cursor. -/
def Obligations.NextUntilEndIsAll : Prop :=
  ∀ s : State, s.slen % 11 = 0 → s.slen ≤ 264 → s.pos = 0 →
    ∃ t u vs, execSeq (List.replicate (s.slen / 11 + 1) .bcxNext) s = .next t ∧ exec .bcxAll s = .next u ∧
      t.out = s.out ++ vs.map (fun v => .ok (.index v)) ++ [.endOfStream] ∧ u.out = s.out ++ [.ok (.indices vs)] ∧
      t.pos = u.pos ∧ t.sb = u.sb ∧ t.slen = u.slen ∧ t.he = u.he

/-- R165(c): every sequence of at most 24 indices is what `BCX_ALL` returns on some loaded stream. -/
def Obligations.EveryIndexSequenceHasAStream : Prop :=
  ∀ xs : List Index, xs.length ≤ 24 → ∃ data : List Byte, data.length = (11 * xs.length + 7) / 8 ∧
    ∀ s : State, ∃ t, execSeq [.sbLoad (11 * xs.length) data, .bcxAll] s = .next t ∧
      t.out = s.out ++ [.ok .nothing, .ok (.indices xs)]

/-- R165(c): the indices determine the stream they were read from. -/
def Obligations.IndicesDetermineStream : Prop :=
  ∀ (s s' t t' : State) (r : Response), s.Inv → s'.Inv → s.slen = s'.slen →
    exec .bcxAll s = .next t → exec .bcxAll s' = .next t' → t.out = s.out ++ [r] → t'.out = s'.out ++ [r] → s.sb = s'.sb

/-- R163: the byte-level form of `READ11` gives the same index, and the index depends on bytes `q` and `q + 1`, and on byte
`q + 2` only at bit offsets 6 and 7. -/
def Obligations.ReadWindowForm : Prop :=
  (∀ (sb : Memory) (p : Nat), read11 sb p = read11Window sb p) ∧
  (∀ (sb sb' : Memory) (p : Nat), sb.read (p / 8) = sb'.read (p / 8) → sb.read (p / 8 + 1) = sb'.read (p / 8 + 1) →
    (6 ≤ p % 8 → sb.read (p / 8 + 2) = sb'.read (p / 8 + 2)) → read11 sb p = read11 sb' p)

/-- R75, R165(a), R204(b): entropy of an admitted length, loaded, extended and extracted, gives `(8L + L/4) / 11` indices that spell
the entropy followed by the first `L / 4` bits of its digest; the Hash Engine is unchanged. -/
def Obligations.EntropyToIndices : Prop :=
  ∀ (s : State) (E : List Byte), E.length ∈ [16, 20, 24, 28, 32] →
    ∃ t vs, execSeq [.sbLoad (8 * E.length) E, .csAppend, .bcxAll] s = .next t ∧
      t.out.getLast? = some (.ok (.indices vs)) ∧ 11 * vs.length = 8 * E.length + E.length / 4 ∧
      (∀ k, k < 8 * E.length → indexBit vs k = bitOf E k) ∧
      (∀ j, j < E.length / 4 → indexBit vs (8 * E.length + j) = bitOf (sha256 E) j) ∧ t.he = s.he

/-! ### Rules of the whole machine -/

/-- R38: a Hash Engine command leaves `SB`, `SLEN` and `POS` alone, every other command leaves the Hash Engine alone, and the
extractor only moves its cursor. -/
def Obligations.CommandsKeepTheOtherHalf : Prop :=
  ∀ (i : Instr) (s t : State), exec i s = .next t →
    (isHashCommand i = true → t.sb = s.sb ∧ t.slen = s.slen ∧ t.pos = s.pos) ∧
    (isHashCommand i = false → t.he = s.he) ∧
    (i = .bcxNext ∨ i = .bcxAll → t.sb = s.sb ∧ t.slen = s.slen)

/-- R38, R151: what a Hash Engine command does and answers depends on the Hash Engine alone, and what any other command does
and answers on `SB`, `SLEN` and `POS` alone. -/
def Obligations.HalvesDoNotSeeEachOther : Prop :=
  ∀ (i : Instr) (s s' : State),
    (isHashCommand i = true → s.he = s'.he) →
    (isHashCommand i = false → s.sb = s'.sb ∧ s.slen = s'.slen ∧ s.pos = s'.pos) →
    (∀ t, exec i s = .next t → ∃ t' r, exec i s' = .next t' ∧ t.out = s.out ++ [r] ∧ t'.out = s'.out ++ [r] ∧
      (isHashCommand i = true → t'.he = t.he) ∧
      (isHashCommand i = false → t'.sb = t.sb ∧ t'.slen = t.slen ∧ t'.pos = t.pos)) ∧
    (∀ f, exec i s = .fault f → exec i s' = .fault f) ∧
    (∀ q, exec i s = .refused q → exec i s' = .refused q)

/-- R204: a command of one half and a command of the other may be exchanged. -/
def Obligations.HalvesCommute : Prop :=
  ∀ (i j : Instr) (s a b : State), isHashCommand i = true → isHashCommand j = false →
    exec i s = .next a → exec j a = .next b →
    ∃ c d, exec j s = .next c ∧ exec i c = .next d ∧ d.he = b.he ∧ d.sb = b.sb ∧ d.slen = b.slen ∧ d.pos = b.pos

/-- R186: a fault response changes nothing: the state is as before but for the response itself. -/
def Obligations.FaultChangesNothing : Prop :=
  ∀ (i : Instr) (s t : State) (c : FaultCode), exec i s = .next t → t.out = s.out ++ [.fault c] →
    t = { s with out := s.out ++ [.fault c] }

/-- R181 to R185, R187, R189: which command returns which fault, and when. -/
def Obligations.FaultsByCommand : Prop :=
  ∀ (i : Instr) (s t : State) (c : FaultCode), exec i s = .next t → t.out = s.out ++ [.fault c] →
    (c = .useAfterFinalize ∧ (i = .heFinal ∨ ∃ data, i = .heUpdate data) ∧ s.he = .finalized) ∨
    (c = .invalidSize ∧ i = .csAppend ∧ s.slen ∉ [128, 160, 192, 224, 256]) ∨
    (c = .badOperand ∧ ∃ nbits data, i = .sbLoad nbits data ∧ (264 < nbits ∨ data.length ≠ (nbits + 7) / 8))

/-- R79, R182: a command returns exactly one response, and `End` only as `BCX_NEXT` at the end of the stream. -/
def Obligations.OneResponsePerCommand : Prop :=
  ∀ (i : Instr) (s t : State), exec i s = .next t →
    t.inbox = s.inbox ∧ ∃ r, t.out = s.out ++ [r] ∧ (r = .endOfStream → i = .bcxNext ∧ s.pos = s.slen)

/-- R182: exactly which commands are refused, and when. -/
def Obligations.RefusalsExactly : Prop :=
  ∀ (i : Instr) (s : State) (q : Refusal), exec i s = .refused q ↔
    (q = .messageTooLong ∧
      ((∃ data e, i = .heUpdate data ∧ s.he = .live e ∧ 2 ^ 61 - 1 < e.total.toNat + data.length) ∨
        ∃ data, i = .heHash data ∧ 2 ^ 61 - 1 < data.length)) ∨
    (q = .streamNotMultipleOf11 ∧ (i = .bcxNext ∨ i = .bcxAll) ∧ s.slen % 11 ≠ 0)

/-- R25: the phase every command leaves. -/
def Obligations.PhaseTransitions : Prop :=
  ∀ (i : Instr) (s t : State), exec i s = .next t →
    t.he.phase =
      match i with
      | .heInit => .empty
      | .heUpdate _ => if s.he.phase = .finalized then .finalized else .accumulating
      | .heFinal => .finalized
      | .heHash _ => .finalized
      | .sbLoad _ _ => s.he.phase
      | .csAppend => s.he.phase
      | .bcxNext => s.he.phase
      | .bcxAll => s.he.phase

/-- R212: every command that writes `SB` rewinds the cursor, `SB_LOAD` and `CS_APPEND` to 0, and no other command takes it back;
`BCX_ALL` leaves it at the end, so a `BCX_NEXT` after it returns `End`. -/
def Obligations.CursorRewound : Prop :=
  (∀ (i : Instr) (s t : State), exec i s = .next t → t.sb ≠ s.sb → t.pos = 0) ∧
  (∀ (s t : State) (nbits : Nat) (data : List Byte), exec (.sbLoad nbits data) s = .next t →
    t.out = s.out ++ [.ok .nothing] → t.pos = 0) ∧
  (∀ (s t : State) (n : Nat) (bs : List Byte), exec .csAppend s = .next t →
    t.out = s.out ++ [.ok (.stream n bs)] → t.pos = 0) ∧
  (∀ (i : Instr) (s t : State), s.pos ≤ s.slen → exec i s = .next t → t.pos < s.pos →
    i = .csAppend ∨ ∃ nbits data, i = .sbLoad nbits data) ∧
  (∀ s t : State, exec .bcxAll s = .next t →
    t.pos = t.slen ∧ exec .bcxNext t = .next { t with out := t.out ++ [.endOfStream] })

/-- R203: right after reset the engine and the stream are empty, so every command but `CS_APPEND` succeeds on operands the
rules accept. -/
def Obligations.BootState : Prop :=
  (∀ data : List Byte, data.length ≤ 2 ^ 61 - 1 →
    ∃ t, exec (.heUpdate data) State.reset = .next t ∧ t.out = [.ok .nothing]) ∧
  (∃ t, exec .heFinal State.reset = .next t ∧ t.out = [.ok (.digest (sha256 []))]) ∧
  (∀ data : List Byte, data.length ≤ 2 ^ 61 - 1 →
    ∃ t, exec (.heHash data) State.reset = .next t ∧ t.out = [.ok (.digest (sha256 data))]) ∧
  (∃ t, exec .heInit State.reset = .next t ∧ t.out = [.ok .nothing]) ∧
  (∀ (nbits : Nat) (data : List Byte), nbits ≤ 264 → data.length = (nbits + 7) / 8 →
    ∃ t, exec (.sbLoad nbits data) State.reset = .next t ∧ t.out = [.ok .nothing]) ∧
  exec .bcxNext State.reset = .next { State.reset with out := [.endOfStream] } ∧
  exec .bcxAll State.reset = .next { State.reset with out := [.ok (.indices [])] } ∧
  exec .csAppend State.reset = .next { State.reset with out := [.fault .invalidSize] }

/-- R79, R181: the bytes of every response. -/
def Obligations.ResponseByteLayout : Prop :=
  (Response.ok .nothing).bytes = [0x00#8] ∧ Response.endOfStream.bytes = [0x01#8] ∧
  (Response.fault .invalidSize).bytes = [0x81#8] ∧ (Response.fault .generationFailure).bytes = [0x82#8] ∧
  (Response.fault .indexOutOfRange).bytes = [0x83#8] ∧ (Response.fault .useAfterFinalize).bytes = [0x84#8] ∧
  (Response.fault .illegalCommand).bytes = [0x85#8] ∧ (Response.fault .badOperand).bytes = [0x86#8] ∧
  (∀ bs : List Byte, (Response.ok (.digest bs)).bytes = 0x00#8 :: bs) ∧
  (∀ (n : Nat) (bs : List Byte), n ≤ 264 → ∃ hi lo : Byte, hi.toNat * 256 + lo.toNat = n ∧
    (Response.ok (.stream n bs)).bytes = 0x00#8 :: hi :: lo :: bs) ∧
  (∀ v : Index, ∃ hi lo : Byte, hi.toNat * 256 + lo.toNat = v.toNat ∧ hi.toNat ≤ 7 ∧
    (Response.ok (.index v)).bytes = [0x00#8, hi, lo]) ∧
  (∀ vs : List Index, vs.length ≤ 24 → ∃ c : Byte, c.toNat = vs.length ∧
    (Response.ok (.indices vs)).bytes = 0x00#8 :: c :: vs.flatMap fun v => (Response.ok (.index v)).bytes.drop 1)

/-- R110, R111: each word of `H_INIT` is `floor(sqrt(p * 2^64)) mod 2^32` and each word of `K` is
`floor(cbrt(p * 2^96)) mod 2^32`, for the prime `p` of the same place. -/
def Obligations.ConstantsAreRootsOfPrimes : Prop :=
  (∀ i, i < 8 → ∃ r : Nat, r ^ 2 ≤ firstPrimes.getD i 0 * 2 ^ 64 ∧ firstPrimes.getD i 0 * 2 ^ 64 < (r + 1) ^ 2 ∧
    r % 2 ^ 32 = ([hInit.h0, hInit.h1, hInit.h2, hInit.h3, hInit.h4, hInit.h5, hInit.h6, hInit.h7].getD i 0).toNat) ∧
  (∀ t, t < 64 → ∃ r : Nat, r ^ 3 ≤ firstPrimes.getD t 0 * 2 ^ 96 ∧ firstPrimes.getD t 0 * 2 ^ 96 < (r + 1) ^ 3 ∧
    r % 2 ^ 32 = (kTable.getD t 0).toNat)
end

