-- ==== Sys2Proof/Laws/Bytes.lean ====
section
/-! SUPPORT. The laws of the byte and bit layouts: big-endian numbers, stream bits, masks, the eleven bits of an index. -/

namespace Sys2Proof.Machine

@[simp] theorem length_zeros (n : Nat) : (zeros n).length = n := List.length_replicate

@[simp] theorem length_natBytes (k n : Nat) : (natBytes k n).length = k := by
  induction k <;> simp [natBytes, *]

theorem foldl_be_natBytes (k n acc : Nat) :
    (natBytes k n).foldl (fun n b => n * 256 + b.toNat) acc = acc * 256 ^ k + n % 256 ^ k := by
  induction k generalizing acc with
  | zero => simp [natBytes, Nat.mod_one]
  | succ k ih =>
    rw [natBytes, List.foldl_cons, ih, BitVec.toNat_ofNat, show 256 ^ (k + 1) = 256 ^ k * 256 from rfl, Nat.mod_mul]
    ring

/-- Reading back a number written in `k` bytes. -/
theorem beNat_natBytes (k n : Nat) : beNat (natBytes k n) = n % 256 ^ k := by
  simp [beNat, foldl_be_natBytes]

theorem foldl_be_lt (bs : List Byte) (acc : Nat) :
    bs.foldl (fun n b => n * 256 + b.toNat) acc = acc * 256 ^ bs.length + beNat bs := by
  induction bs generalizing acc with
  | nil => simp [beNat]
  | cons b bs ih =>
    rw [beNat, List.foldl_cons, List.foldl_cons, ih, ih (0 * 256 + b.toNat), List.length_cons, Nat.pow_succ]
    ring

theorem beNat_cons (b : Byte) (bs : List Byte) : beNat (b :: bs) = b.toNat * 256 ^ bs.length + beNat bs := by
  rw [beNat, List.foldl_cons, foldl_be_lt]
  simp

theorem beNat_lt (bs : List Byte) : beNat bs < 256 ^ bs.length := by
  induction bs with
  | nil => simp [beNat]
  | cons b bs ih =>
    have := b.isLt
    rw [beNat_cons, List.length_cons, Nat.pow_succ]
    nlinarith

theorem natBytes_mod (k n m : Nat) : natBytes k (m * 256 ^ k + n) = natBytes k n := by
  induction k generalizing m n with
  | zero => rfl
  | succ k ih =>
    have h : m * 256 ^ (k + 1) + n = (m * 256) * 256 ^ k + n := by ring
    have hd : (m * 256 * 256 ^ k + n) / 256 ^ k = m * 256 + n / 256 ^ k := by
      rw [Nat.add_comm, Nat.add_mul_div_right _ _ (by positivity), Nat.add_comm]
    rw [natBytes, natBytes, h, ih, hd]
    congr 1
    apply BitVec.eq_of_toNat_eq
    simp [Nat.add_mod]

/-- Writing out the number a byte sequence spells gives the sequence back. -/
theorem natBytes_beNat (bs : List Byte) : natBytes bs.length (beNat bs) = bs := by
  induction bs with
  | nil => rfl
  | cons b bs ih =>
    rw [List.length_cons, natBytes, beNat_cons, natBytes_mod, ih]
    congr 1
    rw [Nat.add_comm, Nat.add_mul_div_right _ _ (by positivity), Nat.div_eq_of_lt (beNat_lt bs)]
    simp

@[simp] theorem length_bytesBE64 (n : BitVec 64) : (bytesBE64 n).length = 8 := length_natBytes 8 _

@[simp] theorem length_digestOf (H : HashWords) : (digestOf H).length = 32 := rfl

/-- The bits of a mask of the top `n` bits. -/
theorem getLsbD_topMask (n j : Nat) : (topMask n).getLsbD j = (decide (8 - n ≤ j) && decide (j < 8)) := by
  simp only [topMask, BitVec.getLsbD_shiftLeft]
  by_cases hj : j < 8
  · by_cases hn : j < 8 - n
    · simp [hn, hj]
      omega
    · have : 8 - n ≤ j := by omega
      have h8 : j - (8 - n) < 8 := by omega
      have key : ∀ i, i < 8 → (0xFF#8).getLsbD i = true := by decide
      simp [this, hj, key _ h8]
  · simp [hj]

/-- The bits of the number that `n` bits spell, the first of the greatest weight. -/
theorem testBit_bitSum (f : Nat → Bool) (n t : Nat) (h : t < n) :
    (((List.range n).map fun i => (f i).toNat * 2 ^ (n - 1 - i)).sum).testBit (n - 1 - t) = f t := by
  have step : ∀ n, ((List.range (n + 1)).map fun i => (f i).toNat * 2 ^ (n - i)).sum =
      2 * ((List.range n).map fun i => (f i).toNat * 2 ^ (n - 1 - i)).sum + (f n).toNat := by
    intro n
    rw [List.range_succ, List.map_append, List.sum_append, ← List.sum_map_mul_left]
    congr 1
    · congr 1
      apply List.map_congr_left
      intro i hi
      have : n - i = n - 1 - i + 1 := by have := List.mem_range.mp hi; omega
      rw [this, Nat.pow_succ]
      ring
    · simp
  induction n with
  | zero => omega
  | succ n ih =>
    rw [Nat.add_sub_cancel, step n]
    by_cases ht : t = n
    · subst ht
      cases f t <;> simp [Nat.testBit_zero]
    · have : n - t = n - 1 - t + 1 := by omega
      rw [this, Nat.testBit_succ, show (2 * ((List.range n).map fun i => (f i).toNat * 2 ^ (n - 1 - i)).sum + (f n).toNat) / 2 =
        ((List.range n).map fun i => (f i).toNat * 2 ^ (n - 1 - i)).sum by cases f n <;> (simp; try omega)]
      exact ih (by omega)

/-- Bit `10 - t` of an index is the stream bit `t` places behind its first (R161). -/
theorem getLsbD_read11 (sb : Memory) (p t : Nat) (h : t < 11) : (read11 sb p).getLsbD (10 - t) = streamBit sb (p + t) := by
  have := testBit_bitSum (fun i => streamBit sb (p + i)) 11 t h
  rw [read11, BitVec.getLsbD_ofNat]
  simpa [show 10 - t < 11 by omega] using this

end Sys2Proof.Machine
end

