-- ==== Sys2Proof/Laws/Encoding.lean ====
section
/-! SUPPORT. The three formats of a command: what their decoders answer, forwards and backwards. -/

namespace Sys2Proof.Machine

/-- Format `N` is the command alone. -/
theorem decodeN_command {i j : Instr} {rest : List Byte} : decodeN i rest = .command j ↔ rest = [] ∧ i = j := by
  cases rest <;> simp [decodeN]

/-- Format `D` is the length of the data and then the data. -/
theorem decodeD_command {mk : List Byte → Instr} {rest : List Byte} {j : Instr} :
    decodeD mk rest = .command j ↔ ∃ data, data.length < 2 ^ 64 ∧ rest = natBytes 8 data.length ++ data ∧ mk data = j := by
  constructor
  · intro h
    unfold decodeD at h
    split at h
    · cases h
    · split at h
      · cases h
      · split at h
        · cases h
        · have h8 : (rest.take 8).length = 8 := List.length_take_of_le (by omega)
          have hl : (rest.drop 8).length = beNat (rest.take 8) := by omega
          have hb := natBytes_beNat (rest.take 8)
          have hlt := beNat_lt (rest.take 8)
          rw [h8] at hb hlt
          exact ⟨rest.drop 8, by omega, by rw [hl, hb, List.take_append_drop], Decoded.command.inj h⟩
  · rintro ⟨data, hl, rfl, rfl⟩
    have h8 : beNat (natBytes 8 data.length) = data.length := by rw [beNat_natBytes]; exact Nat.mod_eq_of_lt hl
    have ht : (natBytes 8 data.length ++ data).take 8 = natBytes 8 data.length := List.take_left' (length_natBytes 8 _)
    have hd : (natBytes 8 data.length ++ data).drop 8 = data := List.drop_left' (length_natBytes 8 _)
    simp [decodeD, ht, hd, h8]

/-- Format `S` is the number of bits and then at least the data bytes it declares. -/
theorem decodeS_command {rest : List Byte} {j : Instr} :
    decodeS rest = .command j ↔
      ∃ nbits data, nbits < 2 ^ 16 ∧ ceilBytes nbits ≤ data.length ∧ rest = natBytes 2 nbits ++ data ∧ .sbLoad nbits data = j := by
  constructor
  · intro h
    unfold decodeS at h
    split at h
    · cases h
    · split at h
      · cases h
      · have h2 : (rest.take 2).length = 2 := List.length_take_of_le (by omega)
        have hb := natBytes_beNat (rest.take 2)
        have hlt := beNat_lt (rest.take 2)
        rw [h2] at hb hlt
        exact ⟨_, rest.drop 2, by omega, by omega, by rw [hb, List.take_append_drop], Decoded.command.inj h⟩
  · rintro ⟨nbits, data, hn, hl, rfl, rfl⟩
    have h2 : beNat (natBytes 2 nbits) = nbits := by rw [beNat_natBytes]; exact Nat.mod_eq_of_lt hn
    have ht : (natBytes 2 nbits ++ data).take 2 = natBytes 2 nbits := List.take_left' (length_natBytes 2 _)
    have hd : (natBytes 2 nbits ++ data).drop 2 = data := List.drop_left' (length_natBytes 2 _)
    simp [decodeS, ht, hd, h2, Nat.not_lt.mpr hl, show ¬ 2 + data.length ≤ 1 by omega]

end Sys2Proof.Machine
end

