-- ==== Sys2Proof/Laws/State.lean ====
section
/-! SUPPORT. One lemma per field per update of the state, and of a live engine. -/

namespace Sys2Proof.Machine

section
variable (s : State) (r : Response) (he : HashEngine) (sb : Memory) (n p : Nat)

@[simp] theorem State.respond_he : (s.respond r).he = s.he := rfl
@[simp] theorem State.respond_sb : (s.respond r).sb = s.sb := rfl
@[simp] theorem State.respond_slen : (s.respond r).slen = s.slen := rfl
@[simp] theorem State.respond_pos : (s.respond r).pos = s.pos := rfl
@[simp] theorem State.respond_inbox : (s.respond r).inbox = s.inbox := rfl
@[simp] theorem State.respond_out : (s.respond r).out = s.out ++ [r] := rfl

@[simp] theorem State.setEngine_he : (s.setEngine he).he = he := rfl
@[simp] theorem State.setEngine_sb : (s.setEngine he).sb = s.sb := rfl
@[simp] theorem State.setEngine_slen : (s.setEngine he).slen = s.slen := rfl
@[simp] theorem State.setEngine_pos : (s.setEngine he).pos = s.pos := rfl
@[simp] theorem State.setEngine_inbox : (s.setEngine he).inbox = s.inbox := rfl
@[simp] theorem State.setEngine_out : (s.setEngine he).out = s.out := rfl

@[simp] theorem State.setStream_he : (s.setStream sb n p).he = s.he := rfl
@[simp] theorem State.setStream_sb : (s.setStream sb n p).sb = sb := rfl
@[simp] theorem State.setStream_slen : (s.setStream sb n p).slen = n := rfl
@[simp] theorem State.setStream_pos : (s.setStream sb n p).pos = p := rfl
@[simp] theorem State.setStream_inbox : (s.setStream sb n p).inbox = s.inbox := rfl
@[simp] theorem State.setStream_out : (s.setStream sb n p).out = s.out := rfl

@[simp] theorem State.setPos_he : (s.setPos p).he = s.he := rfl
@[simp] theorem State.setPos_sb : (s.setPos p).sb = s.sb := rfl
@[simp] theorem State.setPos_slen : (s.setPos p).slen = s.slen := rfl
@[simp] theorem State.setPos_pos : (s.setPos p).pos = p := rfl
@[simp] theorem State.setPos_inbox : (s.setPos p).inbox = s.inbox := rfl
@[simp] theorem State.setPos_out : (s.setPos p).out = s.out := rfl
end

section
variable (e : Live) (n : Nat) (b : Byte) (H : HashWords) (buf : Memory) (bitlen : BitVec 64)

@[simp] theorem Live.count_h : (e.count n).h = e.h := rfl
@[simp] theorem Live.count_buf : (e.count n).buf = e.buf := rfl
@[simp] theorem Live.count_fill : (e.count n).fill = e.fill := rfl
@[simp] theorem Live.count_total : (e.count n).total = e.total + BitVec.ofNat 64 n := rfl
@[simp] theorem Live.count_phase : (e.count n).phase = e.phase := rfl

@[simp] theorem Live.accumulate_h : e.accumulate.h = e.h := rfl
@[simp] theorem Live.accumulate_buf : e.accumulate.buf = e.buf := rfl
@[simp] theorem Live.accumulate_fill : e.accumulate.fill = e.fill := rfl
@[simp] theorem Live.accumulate_total : e.accumulate.total = e.total := rfl
@[simp] theorem Live.accumulate_phase : e.accumulate.phase = .accumulating := rfl

@[simp] theorem Live.afterBlock_h : (e.afterBlock H).h = H := rfl
@[simp] theorem Live.afterBlock_buf : (e.afterBlock H).buf = [] := rfl
@[simp] theorem Live.afterBlock_fill : (e.afterBlock H).fill = 0 := rfl
@[simp] theorem Live.afterBlock_total : (e.afterBlock H).total = e.total := rfl
@[simp] theorem Live.afterBlock_phase : (e.afterBlock H).phase = e.phase := rfl

@[simp] theorem Live.buffered_h : (e.buffered b).h = e.h := rfl
@[simp] theorem Live.buffered_buf : (e.buffered b).buf = e.buf.write e.fill b := rfl
@[simp] theorem Live.buffered_fill : (e.buffered b).fill = e.fill + 1 := rfl
@[simp] theorem Live.buffered_total : (e.buffered b).total = e.total := rfl
@[simp] theorem Live.buffered_phase : (e.buffered b).phase = e.phase := rfl

@[simp] theorem Live.compressBuf_h :
    (e.compressBuf buf).h = compress e.h (buf.readBytes 0 Config.blockBytes) := e.afterBlock_h _
@[simp] theorem Live.compressBuf_buf : (e.compressBuf buf).buf = [] := e.afterBlock_buf _
@[simp] theorem Live.compressBuf_fill : (e.compressBuf buf).fill = 0 := e.afterBlock_fill _
@[simp] theorem Live.compressBuf_total : (e.compressBuf buf).total = e.total := e.afterBlock_total _
@[simp] theorem Live.compressBuf_phase : (e.compressBuf buf).phase = e.phase := e.afterBlock_phase _

@[simp] theorem Live.init_h : Live.init.h = hInit := rfl
@[simp] theorem Live.init_buf : Live.init.buf = [] := rfl
@[simp] theorem Live.init_fill : Live.init.fill = 0 := rfl
@[simp] theorem Live.init_total : Live.init.total = 0#64 := rfl
@[simp] theorem Live.init_phase : Live.init.phase = .empty := rfl

@[simp] theorem HashEngine.phase_finalized : HashEngine.finalized.phase = .finalized := rfl
end

end Sys2Proof.Machine
end

