-- ==== Sys2Proof/Laws/Exec.lean ====
section
/-! SUPPORT. What each command can do: when it answers a next state, that state is one of those named here. And the
same for one step of the machine. -/

namespace Sys2Proof.Machine

section
variable {s t : State}

theorem execHeInit_next (h : execHeInit s = .next t) : t = (s.setEngine (.live Live.init)).respond (.ok .nothing) :=
  (Host.Outcome.next.inj h).symm

theorem execHeUpdate_next {data : List Byte} (h : execHeUpdate data s = .next t) :
    (s.he = .finalized ∧ t = s.respond (.fault .useAfterFinalize)) ∨
    ∃ e, s.he = .live e ∧ e.total.toNat + data.length ≤ Config.maxMsgBytes ∧ e.fill < Config.blockBytes ∧
      t = (s.setEngine (.live (e.update data))).respond (.ok .nothing) := by
  unfold execHeUpdate at h
  split at h
  · exact .inl ⟨‹_›, (Host.Outcome.next.inj h).symm⟩
  · split at h
    · cases h
    · split at h
      · cases h
      · exact .inr ⟨_, ‹_›, Nat.le_of_not_lt ‹_›, Nat.lt_of_not_le ‹_›, (Host.Outcome.next.inj h).symm⟩

theorem execHeFinal_next (h : execHeFinal s = .next t) :
    (s.he = .finalized ∧ t = s.respond (.fault .useAfterFinalize)) ∨
    ∃ e, s.he = .live e ∧ e.fill < Config.blockBytes ∧
      t = (s.setEngine .finalized).respond (.ok (.digest e.digest)) := by
  unfold execHeFinal at h
  split at h
  · exact .inl ⟨‹_›, (Host.Outcome.next.inj h).symm⟩
  · split at h
    · cases h
    · exact .inr ⟨_, ‹_›, Nat.lt_of_not_le ‹_›, (Host.Outcome.next.inj h).symm⟩

theorem execHeHash_next {data : List Byte} (h : execHeHash data s = .next t) :
    data.length ≤ Config.maxMsgBytes ∧
      t = (s.setEngine .finalized).respond (.ok (.digest (Live.init.update data).digest)) := by
  unfold execHeHash at h
  split at h
  · cases h
  · exact ⟨Nat.le_of_not_lt ‹_›, (Host.Outcome.next.inj h).symm⟩

theorem execSbLoad_next {nbits : Nat} {data : List Byte} (h : execSbLoad nbits data s = .next t) :
    (streamOperandsOk nbits data = true ∧ t = (s.setStream (loadStream nbits data) nbits 0).respond (.ok .nothing)) ∨
    (streamOperandsOk nbits data = false ∧ t = s.respond (.fault .badOperand)) := by
  unfold execSbLoad at h
  split at h
  · exact .inl ⟨‹_›, (Host.Outcome.next.inj h).symm⟩
  · exact .inr ⟨Bool.eq_false_iff.mpr ‹_›, (Host.Outcome.next.inj h).symm⟩

theorem execCsAppend_next (h : execCsAppend s = .next t) :
    (isEntropyLength s.slen = true ∧
      t = (s.setStream (appendChecksum s.sb (s.slen / 8)) (combinedBits (s.slen / 8)) 0).respond
        (.ok (.stream (combinedBits (s.slen / 8))
          ((appendChecksum s.sb (s.slen / 8)).readBytes 0 (ceilBytes (combinedBits (s.slen / 8))))))) ∨
    (isEntropyLength s.slen = false ∧ t = s.respond (.fault .invalidSize)) := by
  unfold execCsAppend at h
  split at h
  · exact .inl ⟨‹_›, (Host.Outcome.next.inj h).symm⟩
  · exact .inr ⟨Bool.eq_false_iff.mpr ‹_›, (Host.Outcome.next.inj h).symm⟩

theorem execBcxNext_next (h : execBcxNext s = .next t) :
    s.slen % 11 = 0 ∧
    ((s.pos = s.slen ∧ t = s.respond .endOfStream) ∨
     (s.pos + 11 ≤ s.slen ∧ s.slen ≤ 264 ∧
      t = (s.setPos (s.pos + 11)).respond (.ok (.index (read11 s.sb s.pos))))) := by
  unfold execBcxNext at h
  split at h
  · cases h
  · refine ⟨Decidable.not_not.mp ‹_›, ?_⟩
    split at h
    · exact .inl ⟨‹_›, (Host.Outcome.next.inj h).symm⟩
    · split at h
      · cases h
      · have hg := not_or.mp ‹_›
        exact .inr ⟨Nat.le_of_not_lt hg.1, Nat.le_of_not_lt hg.2, (Host.Outcome.next.inj h).symm⟩

theorem execBcxAll_next (h : execBcxAll s = .next t) :
    s.slen % 11 = 0 ∧ s.slen ≤ 264 ∧ t = (s.setPos s.slen).respond (.ok (.indices (allIndices s.sb s.slen))) := by
  unfold execBcxAll at h
  split at h
  · cases h
  · split at h
    · cases h
    · exact ⟨Decidable.not_not.mp ‹_›, Nat.le_of_not_lt ‹_›, (Host.Outcome.next.inj h).symm⟩

/-- One step: nothing was issued, or a command ran, or an illegal opcode was answered. -/
theorem step_next (h : step s = .next t) :
    (s.inbox = [] ∧ t = s) ∨
    ∃ cmd rest, s.inbox = cmd :: rest ∧
      ((∃ i, decode cmd = .command i ∧ exec i { s with inbox := rest } = .next t) ∨
       (∃ op, decode cmd = .illegal op ∧ t = { s with inbox := rest }.respond (.fault .illegalCommand))) := by
  unfold step fetch at h
  cases hi : s.inbox with
  | nil =>
    rw [hi] at h
    exact .inl ⟨rfl, (Host.Outcome.next.inj h).symm⟩
  | cons cmd rest =>
    rw [hi] at h
    refine .inr ⟨cmd, rest, rfl, ?_⟩
    dsimp only at h
    split at h
    · exact .inl ⟨_, ‹_›, h⟩
    · exact .inr ⟨_, ‹_›, (Host.Outcome.next.inj h).symm⟩
    · cases h
    · cases h

end

/-- A command neither reads nor writes `inbox`. -/
theorem exec_setInbox (i : Instr) (s : State) (x : List (List Byte)) :
    exec i { s with inbox := x } =
      match exec i s with
      | .next t => .next { t with inbox := x }
      | .fault f => .fault f
      | .refused r => .refused r := by
  obtain ⟨he, sb, slen, pos, inbox, out⟩ := s
  cases i with
  | heInit => rfl
  | heUpdate data =>
    simp only [exec, execHeUpdate]
    cases he with
    | finalized => rfl
    | live e =>
      by_cases h1 : Config.maxMsgBytes < e.total.toNat + data.length
      · simp only [if_pos h1]
      · by_cases h2 : Config.blockBytes ≤ e.fill
        · simp only [if_neg h1, if_pos h2]
        · simp only [if_neg h1, if_neg h2]; rfl
  | heFinal =>
    simp only [exec, execHeFinal]
    cases he with
    | finalized => rfl
    | live e =>
      by_cases h1 : Config.blockBytes ≤ e.fill
      · simp only [if_pos h1]
      · simp only [if_neg h1]; rfl
  | heHash data =>
    simp only [exec, execHeHash]
    by_cases h1 : Config.maxMsgBytes < data.length
    · simp only [if_pos h1]
    · simp only [if_neg h1]; rfl
  | sbLoad nbits data =>
    simp only [exec, execSbLoad]
    by_cases h1 : streamOperandsOk nbits data = true
    · simp only [if_pos h1]; rfl
    · simp only [if_neg h1]; rfl
  | csAppend =>
    simp only [exec, execCsAppend]
    by_cases h1 : isEntropyLength slen = true
    · simp only [if_pos h1]; rfl
    · simp only [if_neg h1]; rfl
  | bcxNext =>
    simp only [exec, execBcxNext]
    by_cases h1 : slen % Config.chunkBits ≠ 0
    · simp only [if_pos h1]
    · by_cases h2 : pos = slen
      · simp only [if_neg h1, if_pos h2]; rfl
      · by_cases h3 : slen < pos + Config.chunkBits ∨ Config.sbBits < slen
        · simp only [if_neg h1, if_neg h2, if_pos h3]
        · simp only [if_neg h1, if_neg h2, if_neg h3]; rfl
  | bcxAll =>
    simp only [exec, execBcxAll]
    by_cases h1 : slen % Config.chunkBits ≠ 0
    · simp only [if_pos h1]
    · by_cases h2 : Config.sbBits < slen
      · simp only [if_neg h1, if_pos h2]
      · simp only [if_neg h1, if_neg h2]; rfl

/-- A run of the machine is its first step and then the rest. -/
theorem core_run_succ (n : Nat) (s : State) :
    core.run (n + 1) s =
      match step s with
      | .next t => core.run n t
      | .fault f => .fault f
      | .refused r => .refused r := by
  have h := Host.Core.run.eq_2 core s n
  generalize ho : core.step s = o at h
  have ho' : step s = o := ho
  rw [ho']
  refine h.trans ?_
  cases o <;> rfl

/-- A sequence of commands is its first command and then the rest. -/
theorem execSeq_cons_next {i : Instr} {is : List Instr} {s t : State} (h : exec i s = .next t) :
    execSeq (i :: is) s = execSeq is t := by rw [execSeq, h]

theorem execSeq_append_next {is js : List Instr} {s t : State} (h : execSeq is s = .next t) :
    execSeq (is ++ js) s = execSeq js t := by
  induction is generalizing s with
  | nil => cases h; rfl
  | cons i is ih =>
    rw [execSeq] at h
    rw [List.cons_append, execSeq]
    split at h <;> simp_all

end Sys2Proof.Machine
end

