-- ==== Sys2Proof/Laws/Memory.lean ====
section
/-! SUPPORT. The laws of a byte memory: reads after writes, the canonical form, and that it makes equal memories equal
data. -/

namespace Sys2Proof.Machine

theorem Memory.wfFrom_mono {size lo lo' : Nat} {m : Memory} (h : m.wfFrom size lo' = true) (hl : lo ≤ lo') :
    m.wfFrom size lo = true := by
  cases m with
  | nil => rfl
  | cons c m =>
    simp only [Memory.wfFrom, Bool.and_eq_true, decide_eq_true_eq] at h ⊢
    exact ⟨⟨⟨hl.trans h.1.1.1, h.1.1.2⟩, h.1.2⟩, h.2⟩

/-- An address below every listed one reads as unlisted. -/
theorem Memory.read_below {size lo a : Nat} {m : Memory} (h : m.wfFrom size lo = true) (ha : a < lo) :
    m.read a = unlistedByte := by
  induction m generalizing lo with
  | nil => rfl
  | cons c m ih =>
    simp only [Memory.wfFrom, Bool.and_eq_true, decide_eq_true_eq] at h
    rw [Memory.read, if_neg (by omega)]
    exact ih h.2 (by omega)

/-- An address past the end of the memory reads as unlisted. -/
theorem Memory.read_outside {size lo a : Nat} {m : Memory} (h : m.wfFrom size lo = true) (ha : size ≤ a) :
    m.read a = unlistedByte := by
  induction m generalizing lo with
  | nil => rfl
  | cons c m ih =>
    simp only [Memory.wfFrom, Bool.and_eq_true, decide_eq_true_eq] at h
    rw [Memory.read, if_neg (by omega)]
    exact ih h.2

/-- A write inside the memory keeps the canonical form. -/
theorem Memory.wfFrom_write {size lo a : Nat} {m : Memory} {b : Byte} (h : m.wfFrom size lo = true) (hl : lo ≤ a)
    (ha : a < size) : (m.write a b).wfFrom size lo = true := by
  induction m generalizing lo with
  | nil =>
    rw [Memory.write]
    split
    · rfl
    · simp [Memory.wfFrom, *]
  | cons c m ih =>
    have h' := h
    simp only [Memory.wfFrom, Bool.and_eq_true, decide_eq_true_eq] at h
    obtain ⟨⟨⟨hk, hs⟩, hv⟩, hm⟩ := h
    rw [Memory.write]
    split
    · split
      · exact h'
      · simp only [Memory.wfFrom, Bool.and_eq_true, decide_eq_true_eq]
        exact ⟨⟨⟨hl, ha⟩, by assumption⟩, ⟨⟨by omega, hs⟩, hv⟩, hm⟩
    · split
      · split
        · exact Memory.wfFrom_mono hm (by omega)
        · simp only [Memory.wfFrom, Bool.and_eq_true, decide_eq_true_eq]
          subst_vars
          exact ⟨⟨⟨hk, hs⟩, by assumption⟩, hm⟩
      · simp only [Memory.wfFrom, Bool.and_eq_true, decide_eq_true_eq]
        exact ⟨⟨⟨hk, hs⟩, hv⟩, ih hm (by omega)⟩

/-- A read after a write: the byte written at its address, what was there before at every other. -/
theorem Memory.wfFrom_read_write {size lo a x : Nat} {m : Memory} {b : Byte} (h : m.wfFrom size lo = true) :
    (m.write a b).read x = if x = a then b else m.read x := by
  induction m generalizing lo with
  | nil =>
    rw [Memory.write]
    split <;> simp_all [Memory.read]
  | cons c m ih =>
    obtain ⟨k, v⟩ := c
    simp only [Memory.wfFrom, Bool.and_eq_true, decide_eq_true_eq] at h
    obtain ⟨⟨⟨hk, hs⟩, hv⟩, hm⟩ := h
    have below : ∀ y, y ≤ k → Memory.read m y = unlistedByte := fun y hy => Memory.read_below hm (by omega)
    rw [Memory.write]
    split
    · split
      · by_cases hx : x = a
        · subst hx
          rw [Memory.read, if_neg (by omega), below x (by omega)]
          simp [*]
        · simp [hx]
      · simp only [Memory.read]
    · split
      · subst_vars
        split
        · by_cases hx : x = k
          · subst hx
            simp [*]
          · simp [Memory.read, hx]
        · by_cases hx : x = k <;> simp [Memory.read, hx]
      · simp only [Memory.read, ih hm]
        by_cases hx : x = k
        · simp [hx]
          omega
        · simp [hx]

theorem Memory.wf_write {size a : Nat} {m : Memory} (b : Byte) (h : m.wf size = true) (ha : a < size) :
    (m.write a b).wf size = true := Memory.wfFrom_write h (Nat.zero_le a) ha

theorem Memory.read_write {size : Nat} {m : Memory} (a x : Nat) (b : Byte) (h : m.wf size = true) :
    (m.write a b).read x = if x = a then b else m.read x := Memory.wfFrom_read_write h

theorem Memory.wf_read_outside {size a : Nat} {m : Memory} (h : m.wf size = true) (ha : size ≤ a) :
    m.read a = unlistedByte := Memory.read_outside h ha

@[simp] theorem Memory.wf_nil (size : Nat) : Memory.wf size [] = true := rfl

@[simp] theorem Memory.read_nil (a : Nat) : Memory.read [] a = unlistedByte := rfl

/-- Writing bytes inside the memory keeps the canonical form. -/
theorem Memory.wf_writeBytes {size a : Nat} {m : Memory} {bs : List Byte} (h : m.wf size = true)
    (ha : a + bs.length ≤ size) : (m.writeBytes a bs).wf size = true := by
  induction bs generalizing m a with
  | nil => exact h
  | cons b bs ih =>
    simp only [List.length_cons] at ha
    exact ih (Memory.wf_write b h (by omega)) (by omega)

/-- A read after writing bytes. -/
theorem Memory.read_writeBytes {size a : Nat} {m : Memory} {bs : List Byte} (x : Nat) (h : m.wf size = true)
    (ha : a + bs.length ≤ size) :
    (m.writeBytes a bs).read x = if a ≤ x ∧ x < a + bs.length then bs.getD (x - a) 0 else m.read x := by
  induction bs generalizing m a with
  | nil =>
    rw [Memory.writeBytes, if_neg (by simp)]
  | cons b bs ih =>
    simp only [List.length_cons] at ha ⊢
    rw [Memory.writeBytes, ih (Memory.wf_write b h (by omega)) (by omega), Memory.read_write a x b h]
    by_cases hx : x = a
    · subst hx
      simp
    · by_cases hr : a + 1 ≤ x ∧ x < a + 1 + bs.length
      · have : x - a = x - (a + 1) + 1 := by omega
        rw [if_pos hr, if_pos (by omega), this, List.getD_cons_succ]
      · rw [if_neg hr, if_neg hx, if_neg (by omega)]

theorem Memory.wfFrom_ext {size lo : Nat} {m m' : Memory} (h : m.wfFrom size lo = true) (h' : m'.wfFrom size lo = true)
    (hr : ∀ a, m.read a = m'.read a) : m = m' := by
  induction m generalizing lo m' with
  | nil =>
    cases m' with
    | nil => rfl
    | cons c m' =>
      simp only [Memory.wfFrom, Bool.and_eq_true, decide_eq_true_eq] at h'
      have := hr c.1
      simp only [Memory.read, if_pos] at this
      exact absurd this.symm h'.1.2
  | cons c m ih =>
    obtain ⟨k, v⟩ := c
    cases m' with
    | nil =>
      simp only [Memory.wfFrom, Bool.and_eq_true, decide_eq_true_eq] at h
      have := hr k
      simp only [Memory.read, if_pos] at this
      exact absurd this h.1.2
    | cons c' m' =>
      obtain ⟨k', v'⟩ := c'
      simp only [Memory.wfFrom, Bool.and_eq_true, decide_eq_true_eq] at h h'
      obtain ⟨⟨⟨hk, hs⟩, hv⟩, hm⟩ := h
      obtain ⟨⟨⟨hk', hs'⟩, hv'⟩, hm'⟩ := h'
      have below : ∀ y, y ≤ k → Memory.read m y = unlistedByte := fun y hy => Memory.read_below hm (by omega)
      have below' : ∀ y, y ≤ k' → Memory.read m' y = unlistedByte := fun y hy => Memory.read_below hm' (by omega)
      have hkk : k = k' := by
        rcases Nat.lt_trichotomy k k' with hlt | heq | hgt
        · have := hr k
          simp only [Memory.read, if_pos, if_neg (Nat.ne_of_lt hlt), below' k (by omega)] at this
          exact absurd this hv
        · exact heq
        · have := hr k'
          simp only [Memory.read, if_pos, if_neg (Nat.ne_of_lt hgt), below k' (by omega)] at this
          exact absurd this.symm hv'
      subst hkk
      have hvv : v = v' := by simpa [Memory.read] using hr k
      subst hvv
      rw [ih hm hm' fun a => ?_]
      by_cases ha : a = k
      · rw [ha, below k (by omega), below' k (by omega)]
      · simpa [Memory.read, ha] using hr a

/-- Two memories in canonical form that read alike are the same data. -/
theorem Memory.ext_of_wf {size : Nat} {m m' : Memory} (h : m.wf size = true) (h' : m'.wf size = true)
    (hr : ∀ a, m.read a = m'.read a) : m = m' := Memory.wfFrom_ext h h' hr

@[simp] theorem Memory.length_readBytes (m : Memory) (a n : Nat) : (m.readBytes a n).length = n := by
  simp [Memory.readBytes]

theorem Memory.getD_readBytes (m : Memory) (a n i : Nat) :
    (m.readBytes a n).getD i 0 = if i < n then m.read (a + i) else 0 := by
  by_cases h : i < n <;> simp [Memory.readBytes, List.getD_eq_getElem?_getD, h]

/-- Reading back the bytes just written. -/
theorem Memory.readBytes_writeBytes {size a : Nat} {m : Memory} {bs : List Byte} (h : m.wf size = true)
    (ha : a + bs.length ≤ size) : (m.writeBytes a bs).readBytes a bs.length = bs := by
  apply List.ext_getElem (by simp)
  intro i hi hi'
  simp only [Memory.readBytes, List.getElem_map, List.getElem_range, Memory.read_writeBytes _ h ha]
  rw [if_pos (by omega), Nat.add_sub_cancel_left, List.getD_eq_getElem?_getD, List.getElem?_eq_getElem hi']
  rfl

end Sys2Proof.Machine
end

