-- ==== Sys2Proof/Laws/HashEngine.lean ====
section
/-! SUPPORT. What the shared operations of the Hash Engine do: one lemma each for appending a byte, appending a byte
sequence, padding, and compressing consecutive blocks. -/

namespace Sys2Proof.Machine

/-! ### Consecutive blocks -/

/-- Only the first `64 * n` bytes matter to `n` blocks. -/
theorem compressBlocks_append_right (n : Nat) (H : HashWords) (P Q : List Byte) (h : 64 * n ≤ P.length) :
    compressBlocks n H (P ++ Q) = compressBlocks n H P := by
  induction n generalizing H P with
  | zero => rfl
  | succ n ih =>
    rw [compressBlocks, compressBlocks, List.take_append_of_le_length (by omega), List.drop_append_of_le_length (by omega),
      ih _ _ (by rw [List.length_drop]; omega)]

/-- Blocks compressed in two runs. -/
theorem compressBlocks_add (j k : Nat) (H : HashWords) (P : List Byte) :
    compressBlocks (j + k) H P = compressBlocks k (compressBlocks j H P) (P.drop (64 * j)) := by
  induction j generalizing H P with
  | zero => simp [compressBlocks]
  | succ j ih =>
    rw [Nat.succ_add, compressBlocks, compressBlocks, ih, List.drop_drop]
    congr 2
    omega

/-! ### APPEND_BYTE -/

@[simp] theorem Live.length_pending (e : Live) : e.pending.length = e.fill := Memory.length_readBytes _ _ _

@[simp] theorem Live.pending_init : Live.init.pending = [] := rfl

theorem Live.readBytes_write (e : Live) (b : Byte) (hw : e.buf.wf Config.blockBytes = true) :
    (e.buf.write e.fill b).readBytes 0 (e.fill + 1) = e.pending ++ [b] := by
  rw [Memory.readBytes, List.range_succ, List.map_append, Live.pending, Memory.readBytes]
  congr 1
  · apply List.map_congr_left
    intro i hi
    have := List.mem_range.mp hi
    rw [Memory.read_write _ _ _ hw, if_neg (by omega)]
  · simp [Memory.read_write _ _ _ hw]

/-- `APPEND_BYTE` that completes no block. -/
theorem Live.appendByte_of_lt (e : Live) (b : Byte) (h : e.fill + 1 < Config.blockBytes) : e.appendByte b = e.buffered b :=
  if_neg (Nat.ne_of_lt h)

/-- `APPEND_BYTE` that completes the block. -/
theorem Live.appendByte_of_eq (e : Live) (b : Byte) (h : e.fill + 1 = Config.blockBytes)
    (hw : e.buf.wf Config.blockBytes = true) : e.appendByte b = e.afterBlock (compress e.h (e.pending ++ [b])) := by
  rw [Live.appendByte, if_pos h, Live.compressBuf, ← h, Live.readBytes_write e b hw]

theorem Live.pending_buffered (e : Live) (b : Byte) (hw : e.buf.wf Config.blockBytes = true) :
    (e.buffered b).pending = e.pending ++ [b] := Live.readBytes_write e b hw

theorem Live.pending_afterBlock (e : Live) (H : HashWords) : (e.afterBlock H).pending = [] := rfl

/-! ### A sequence of bytes -/

theorem Live.appendBytes_cons (e : Live) (b : Byte) (data : List Byte) :
    e.appendBytes (b :: data) = (e.appendByte b).appendBytes data := rfl

theorem Live.appendBytes_append (e : Live) (d d' : List Byte) : e.appendBytes (d ++ d') = (e.appendBytes d).appendBytes d' :=
  List.foldl_append ..

/-- Everything appending the bytes `data` does: with `m` the bytes still in `BUF` followed by `data`, the whole blocks of `m`
are compressed in order, what is left of `m` stays in `BUF`, and `TOTAL` and `PHASE` are not touched. -/
structure Live.Absorbs (e : Live) (data : List Byte) (e' : Live) : Prop where
  h_eq : e'.h = compressBlocks ((e.pending ++ data).length / 64) e.h (e.pending ++ data)
  fill_eq : e'.fill = (e.pending ++ data).length % 64
  pending_eq : e'.pending = (e.pending ++ data).drop (64 * ((e.pending ++ data).length / 64))
  buf_wf : e'.buf.wf Config.blockBytes = true
  buf_clear : (∀ a, e.fill ≤ a → e.buf.read a = unlistedByte) → ∀ a, e'.fill ≤ a → e'.buf.read a = unlistedByte
  total_eq : e'.total = e.total
  phase_eq : e'.phase = e.phase

theorem Live.absorbs_appendBytes (e : Live) (data : List Byte) (hw : e.buf.wf Config.blockBytes = true)
    (hf : e.fill < Config.blockBytes) : e.Absorbs data (e.appendBytes data) := by
  have hB : Config.blockBytes = 64 := rfl
  induction data generalizing e with
  | nil =>
    have hp : (e.pending ++ []).length = e.fill := by simp
    have h0 : e.fill / 64 = 0 := Nat.div_eq_of_lt (hB ▸ hf)
    exact ⟨by rw [hp, h0]; rfl, by rw [hp, Nat.mod_eq_of_lt (hB ▸ hf)]; rfl, by rw [hp, h0]; simp [Live.appendBytes], hw,
      fun hc => hc, rfl, rfl⟩
  | cons b data ih =>
    rw [Live.appendBytes_cons]
    have hm : e.pending ++ b :: data = (e.pending ++ [b]) ++ data := by simp
    by_cases h : e.fill + 1 = Config.blockBytes
    · rw [Live.appendByte_of_eq e b h hw]
      have hlen : (e.pending ++ [b]).length = 64 := by simp [h, hB]
      obtain ⟨h1, h2, h3, h4, h5, h6, h7⟩ := ih (e.afterBlock (compress e.h (e.pending ++ [b]))) rfl (by rw [Live.afterBlock_fill]; decide)
      rw [Live.pending_afterBlock, List.nil_append] at h1 h2 h3
      have hl : ((e.pending ++ [b]) ++ data).length = 64 + data.length := by rw [List.length_append, hlen]
      have hd : (64 + data.length) / 64 = data.length / 64 + 1 := by omega
      refine ⟨?_, ?_, ?_, h4, fun _ => h5 fun _ _ => rfl, h6.trans (e.afterBlock_total _), h7.trans (e.afterBlock_phase _)⟩
      · rw [h1, hm, hl, hd, compressBlocks, Live.afterBlock_h]
        rw [List.take_append_of_le_length (by omega), List.drop_append_of_le_length (by omega),
          List.take_of_length_le (by omega), List.drop_of_length_le (by omega), List.nil_append]
      · rw [h2, hm, hl]
        omega
      · rw [h3, hm, hl, hd, List.drop_append (l₁ := e.pending ++ [b]), hlen,
          List.drop_of_length_le (l := e.pending ++ [b]) (by rw [hlen]; omega), List.nil_append]
        congr 1
    · have hlt : e.fill + 1 < Config.blockBytes := by omega
      rw [Live.appendByte_of_lt e b hlt]
      obtain ⟨h1, h2, h3, h4, h5, h6, h7⟩ := ih (e.buffered b) (Memory.wf_write b hw hf) hlt
      rw [Live.pending_buffered e b hw, ← hm] at h1 h2 h3
      refine ⟨h1, h2, h3, h4, fun hc => h5 fun a ha => ?_, h6, h7⟩
      rw [Live.buffered_fill] at ha
      rw [Live.buffered_buf, Memory.read_write _ _ _ hw, if_neg (by omega)]
      exact hc a (by omega)

/-- `APPEND_BYTE` neither reads nor writes `TOTAL` and `PHASE` (R133). -/
theorem Live.appendByte_count_accumulate (e : Live) (b : Byte) (n : Nat) :
    (e.count n).accumulate.appendByte b = ((e.appendByte b).count n).accumulate := by
  by_cases h : e.fill + 1 = Config.blockBytes
  · rw [Live.appendByte, Live.appendByte, if_pos h, if_pos (by simpa using h)]
    apply Live.ext <;> simp
  · rw [Live.appendByte, Live.appendByte, if_neg h, if_neg (by simpa using h)]
    apply Live.ext <;> simp

theorem Live.appendBytes_count_accumulate (e : Live) (data : List Byte) (n : Nat) :
    (e.count n).accumulate.appendBytes data = ((e.appendBytes data).count n).accumulate := by
  induction data generalizing e with
  | nil => rfl
  | cons b data ih => rw [Live.appendBytes_cons, Live.appendByte_count_accumulate, ih, Live.appendBytes_cons]

/-! ### PAD -/

/-- The zero-fill loop appends the zero bytes that bring `FILL` to 56. -/
theorem Live.padZeros_eq (n : Nat) (e : Live) (hw : e.buf.wf Config.blockBytes = true) (hf : e.fill < Config.blockBytes)
    (hn : (120 - e.fill) % 64 ≤ n) : e.padZeros n = e.appendBytes (zeros ((120 - e.fill) % 64)) := by
  have hB : Config.blockBytes = 64 := rfl
  have hR : Config.padResidue = 56 := rfl
  induction n generalizing e with
  | zero => rw [Live.padZeros, Nat.le_zero.mp hn]; rfl
  | succ n ih =>
    rw [Live.padZeros]
    by_cases h : e.fill = Config.padResidue
    · rw [if_pos h, h]
      rfl
    · rw [if_neg h]
      have hz : (120 - e.fill) % 64 = (119 - e.fill) % 64 + 1 := by omega
      rw [hz, show zeros ((119 - e.fill) % 64 + 1) = 0x00#8 :: zeros ((119 - e.fill) % 64) from rfl, Live.appendBytes_cons]
      by_cases hl : e.fill + 1 = Config.blockBytes
      · rw [Live.appendByte_of_eq e _ hl hw, ih _ rfl (by rw [Live.afterBlock_fill]; decide) (by rw [Live.afterBlock_fill]; omega), Live.afterBlock_fill]
        congr 2
        omega
      · have hlt : e.fill + 1 < Config.blockBytes := by omega
        rw [Live.appendByte_of_lt e _ hlt, ih _ (Memory.wf_write _ hw hf) hlt (by rw [Live.buffered_fill]; omega), Live.buffered_fill]
        congr 2
        omega

/-- Everything `PAD(bitlen)` does to `H`: the bytes still in `BUF`, 0x80, zeros up to 56 modulo 64 and the length are
compressed, one or two blocks of them (R135). -/
theorem Live.pad_h (e : Live) (bitlen : BitVec 64) (hw : e.buf.wf Config.blockBytes = true) (hf : e.fill < Config.blockBytes) :
    (e.pad bitlen).h =
      compressBlocks ((e.fill + 72) / 64) e.h
        (e.pending ++ [0x80#8] ++ zeros ((119 - e.fill) % 64) ++ bytesBE64 bitlen) := by
  have hB : Config.blockBytes = 64 := rfl
  have h80 := Live.absorbs_appendBytes e [0x80#8] hw hf
  have hz : (120 - (e.appendBytes [0x80#8]).fill) % 64 = (119 - e.fill) % 64 := by
    rw [h80.fill_eq, List.length_append, Live.length_pending, List.length_singleton]
    omega
  have hpad : (e.appendByte 0x80#8).padZeros 64 = e.appendBytes ([0x80#8] ++ zeros ((119 - e.fill) % 64)) := by
    rw [Live.appendBytes_append, ← hz]
    exact Live.padZeros_eq 64 (e.appendBytes [0x80#8]) h80.buf_wf (by rw [h80.fill_eq, hB]; omega) (by omega)
  obtain ⟨h1, h2, h3, h4, -, -, -⟩ := Live.absorbs_appendBytes e ([0x80#8] ++ zeros ((119 - e.fill) % 64)) hw hf
  have hlen : (e.pending ++ ([0x80#8] ++ zeros ((119 - e.fill) % 64))).length = e.fill + 1 + (119 - e.fill) % 64 := by
    simp only [List.length_append, Live.length_pending, List.length_singleton, length_zeros]
    omega
  rw [hlen] at h1 h2 h3
  rw [Live.pad, hpad, Live.padLength, Live.compressBuf_h]
  generalize e.appendBytes ([0x80#8] ++ zeros ((119 - e.fill) % 64)) = g at h1 h2 h3 h4
  have hg : g.fill = 56 := by omega
  have hblock : (g.buf.writeBytes Config.padResidue (bytesBE64 bitlen)).readBytes 0 Config.blockBytes =
      g.pending ++ bytesBE64 bitlen := by
    apply List.ext_getElem (by simp [hg, hB])
    intro i hi _
    have hi' : i < 64 := by simpa [hB] using hi
    simp only [Memory.readBytes, List.getElem_map, List.getElem_range, Nat.zero_add]
    rw [Memory.read_writeBytes i h4 (by simp [hB, Config.padResidue]), length_bytesBE64, Config.padResidue]
    by_cases h56 : i < 56
    · rw [if_neg (by omega), List.getElem_append_left (by simp [hg, h56])]
      simp [Live.pending, Memory.readBytes]
    · rw [if_pos (by omega), List.getElem_append_right (by simp [hg]; omega), List.getD_eq_getElem?_getD,
        List.getElem?_eq_getElem (by simp; omega)]
      simp [hg]
  have hk : (e.fill + 72) / 64 = (e.fill + 1 + (119 - e.fill) % 64) / 64 + 1 := by omega
  rw [hblock, h3, h1, hk, compressBlocks_add, compressBlocks, compressBlocks]
  have hb : 64 * ((e.fill + 1 + (119 - e.fill) % 64) / 64) ≤
      (e.pending ++ ([0x80#8] ++ zeros ((119 - e.fill) % 64))).length := by rw [hlen]; omega
  rw [List.append_assoc e.pending, compressBlocks_append_right _ _ _ _ hb, List.drop_append_of_le_length hb,
    List.take_of_length_le (i := 64)]
  rw [List.length_append, List.length_drop, hlen, length_bytesBE64]
  omega

end Sys2Proof.Machine
end

