-- ==== Sys2Proof/Laws/PerInstr.lean ====
section
/-! SUPPORT. Laws made once per command, about its encoding alone. Family `SelfDelimiting` (R78): the opcode byte and the
length field give the length of the command, whatever bytes follow it. -/

namespace Sys2Proof.Laws.SelfDelimiting

open Sys2Proof.Machine

/-- The declared length is the length of the encoding; for `SB_LOAD`, of operands whose data length is the declared one. -/
def Statement (i : Instr) : Prop :=
  i.wellFormed = true → (∀ nbits data, i = .sbLoad nbits data → data.length = ceilBytes nbits) →
    ∀ rest : List Byte, declaredLength (encode i ++ rest) = (encode i).length

/-- Format `N`: one byte. -/
theorem formatN {op : Byte} (h1 : op ≠ 0x01#8) (h3 : op ≠ 0x03#8) (h10 : op ≠ 0x10#8) (rest : List Byte) :
    declaredLength (op :: rest) = 1 := by simp [declaredLength, h1, h3, h10]

/-- Format `D`: nine bytes and the data. -/
theorem formatD {op : Byte} {data : List Byte} (h : op = 0x01#8 ∨ op = 0x03#8) (hl : data.length < 2 ^ 64) (rest : List Byte) :
    declaredLength (op :: (natBytes 8 data.length ++ data) ++ rest) = 9 + data.length := by
  have hb : beNat (natBytes 8 data.length) = data.length := by rw [beNat_natBytes]; exact Nat.mod_eq_of_lt hl
  have ht : (natBytes 8 data.length ++ (data ++ rest)).take 8 = natBytes 8 data.length := List.take_left' (length_natBytes 8 _)
  simp only [declaredLength, List.cons_append, List.append_assoc, ht, hb]
  rw [if_pos h]

theorem heInit : Statement .heInit := fun _ _ => formatN (by decide) (by decide) (by decide)

theorem heUpdate (data : List Byte) : Statement (.heUpdate data) := by
  intro h _ rest
  refine (formatD (.inl rfl) (of_decide_eq_true h) rest).trans ?_
  simp [encode, Instr.operandBytes]
  omega

theorem heFinal : Statement .heFinal := fun _ _ => formatN (by decide) (by decide) (by decide)

theorem heHash (data : List Byte) : Statement (.heHash data) := by
  intro h _ rest
  refine (formatD (.inr rfl) (of_decide_eq_true h) rest).trans ?_
  simp [encode, Instr.operandBytes]
  omega

theorem sbLoad (nbits : Nat) (data : List Byte) : Statement (.sbLoad nbits data) := by
  intro h he rest
  have hn : nbits < 2 ^ 16 := by simp only [Instr.wellFormed, Bool.and_eq_true, decide_eq_true_eq] at h; exact h.1
  have hb : beNat (natBytes 2 nbits) = nbits := by rw [beNat_natBytes]; exact Nat.mod_eq_of_lt hn
  have ht : (natBytes 2 nbits ++ (data ++ rest)).take 2 = natBytes 2 nbits := List.take_left' (length_natBytes 2 _)
  simp [encode, Instr.opcode, Instr.operandBytes, declaredLength, ht, hb, he nbits data rfl]
  omega

theorem csAppend : Statement .csAppend := fun _ _ => formatN (by decide) (by decide) (by decide)

theorem bcxNext : Statement .bcxNext := fun _ _ => formatN (by decide) (by decide) (by decide)

theorem bcxAll : Statement .bcxAll := fun _ _ => formatN (by decide) (by decide) (by decide)

end Sys2Proof.Laws.SelfDelimiting
end

