-- ==== Sys2Proof/Laws/Stream.lean ====
section
/-! SUPPORT. The Stream Buffer as a bit stream: what a byte write, a load and a checksum do to it, and the indices read
from it. -/

namespace Sys2Proof.Machine

/-- A bit of a byte at or past its width is 0. -/
theorem getLsbD_unlisted (j : Nat) : unlistedByte.getLsbD j = false := by simp [unlistedByte]

/-- The stream bits after a byte write: those of the byte written, and what was there before elsewhere. -/
theorem streamBit_write {size a : Nat} {sb : Memory} (b : Byte) (k : Nat) (h : sb.wf size = true) :
    streamBit (sb.write a b) k = if k / 8 = a then b.getLsbD (7 - k % 8) else streamBit sb k := by
  rw [streamBit, Memory.read_write _ _ _ h]
  split <;> rfl

/-- Stream bits past the end of the memory are 0. -/
theorem streamBit_outside {size k : Nat} {sb : Memory} (h : sb.wf size = true) (hk : size ≤ k / 8) :
    streamBit sb k = false := by
  rw [streamBit, Memory.wf_read_outside h hk, getLsbD_unlisted]

/-- Two canonical memories with the same bits are the same data. -/
theorem Memory.ext_of_bits {size : Nat} {sb sb' : Memory} (h : sb.wf size = true) (h' : sb'.wf size = true)
    (hb : ∀ k, k < 8 * size → streamBit sb k = streamBit sb' k) : sb = sb' := by
  refine Memory.ext_of_wf h h' fun a => ?_
  by_cases ha : a < size
  · apply BitVec.eq_of_getLsbD_eq
    intro j hj
    have := hb (8 * a + (7 - j)) (by omega)
    rwa [streamBit, streamBit, show (8 * a + (7 - j)) / 8 = a by omega,
      show 7 - (8 * a + (7 - j)) % 8 = j by omega] at this
  · rw [Memory.wf_read_outside h (by omega), Memory.wf_read_outside h' (by omega)]

theorem streamOperandsOk_iff (nbits : Nat) (data : List Byte) :
    streamOperandsOk nbits data = true ↔ nbits ≤ 264 ∧ data.length = (nbits + 7) / 8 := by
  rw [streamOperandsOk, Bool.and_eq_true, decide_eq_true_eq, decide_eq_true_eq]
  rfl

theorem isEntropyLength_iff (slen : Nat) : isEntropyLength slen = true ↔ slen ∈ [128, 160, 192, 224, 256] :=
  List.contains_iff_mem

/-- What `SB_LOAD` leaves in `SB` is canonical. -/
theorem loadStream_wf {nbits : Nat} {data : List Byte} (h : streamOperandsOk nbits data = true) :
    (loadStream nbits data).wf Config.sbBytes = true := by
  have hB : Config.sbBytes = 33 := rfl
  rw [streamOperandsOk_iff] at h
  have hw : (Memory.writeBytes [] 0 data).wf Config.sbBytes = true := Memory.wf_writeBytes rfl (by omega)
  simp only [loadStream]
  split
  · exact hw
  · exact Memory.wf_write _ hw (by omega)

/-- The stream `SB_LOAD` leaves: the bits of the data, then zeros. -/
theorem streamBit_loadStream {nbits : Nat} {data : List Byte} (k : Nat) (h : streamOperandsOk nbits data = true) :
    streamBit (loadStream nbits data) k = (decide (k < nbits) && bitOf data k) := by
  have hB : Config.sbBytes = 33 := rfl
  rw [streamOperandsOk_iff] at h
  have hw : (Memory.writeBytes [] 0 data).wf Config.sbBytes = true := Memory.wf_writeBytes rfl (by omega)
  have hr : ∀ x, (Memory.writeBytes [] 0 data).read x = data.getD x 0 := by
    intro x
    rw [Memory.read_writeBytes (size := Config.sbBytes) x rfl (by omega)]
    by_cases hx : x < data.length
    · simp [hx]
    · rw [if_neg (by omega), Memory.read_nil, List.getD_eq_getElem?_getD, List.getElem?_eq_none (by omega)]
      rfl
  have hbit : streamBit (Memory.writeBytes [] 0 data) k = bitOf data k := by rw [streamBit, hr, bitOf]
  have hzero : data.length ≤ k / 8 → bitOf data k = false := by
    intro hk
    rw [bitOf, List.getD_eq_getElem?_getD, List.getElem?_eq_none hk]
    simp
  simp only [loadStream]
  split
  · rw [hbit]
    by_cases hk : k < nbits
    · simp [hk]
    · rw [hzero (by omega)]
      simp
  · rw [streamBit_write _ _ hw]
    by_cases hq : k / 8 = nbits / 8
    · rw [if_pos hq, BitVec.getLsbD_and, getLsbD_topMask, hr, ← hq, ← bitOf]
      by_cases hk : k < nbits
      · have h1 : 8 - nbits % 8 ≤ 7 - k % 8 := by omega
        simp [hk, h1, show 7 - k % 8 < 8 by omega]
      · have h1 : ¬ 8 - nbits % 8 ≤ 7 - k % 8 := by omega
        simp [hk, h1]
    · rw [if_neg hq, hbit]
      by_cases hk : k < nbits
      · simp [hk]
      · rw [hzero (by omega)]
        simp

/-- What `CS_APPEND` leaves in `SB` is canonical. -/
theorem appendChecksum_wf {sb : Memory} {L : Nat} (h : sb.wf Config.sbBytes = true) (hL : L < Config.sbBytes) :
    (appendChecksum sb L).wf Config.sbBytes = true := Memory.wf_write _ h hL

/-- The stream `CS_APPEND` leaves: in byte `L` the first `CS` bits of the digest, then zeros; elsewhere what was there. -/
theorem streamBit_appendChecksum {sb : Memory} {L : Nat} (k : Nat) (h : sb.wf Config.sbBytes = true) :
    streamBit (appendChecksum sb L) k =
      if k / 8 = L then decide (k % 8 < checksumBits L) && bitOf (sha256 (sb.readBytes 0 L)) (k % 8) else streamBit sb k := by
  rw [appendChecksum, streamBit_write _ _ h]
  split
  · rw [checksumByte, BitVec.getLsbD_and, getLsbD_topMask, bitOf, Nat.div_eq_of_lt (Nat.mod_lt k (by omega)), Nat.mod_mod,
      Bool.and_comm]
    congr 1
    by_cases hk : k % 8 < checksumBits L
    · simp [hk, show 8 - checksumBits L ≤ 7 - k % 8 by omega, show 7 - k % 8 < 8 by omega]
    · simp [hk, show ¬ 8 - checksumBits L ≤ 7 - k % 8 by omega]
  · rfl

@[simp] theorem length_allIndices (sb : Memory) (slen : Nat) : (allIndices sb slen).length = slen / 11 := by
  simp [allIndices, Config.chunkBits]

/-- The indices of a stream spell it bit for bit. -/
theorem indexBit_allIndices (sb : Memory) (slen k : Nat) (h : k < 11 * (slen / 11)) :
    indexBit (allIndices sb slen) k = streamBit sb k := by
  have hj : k / 11 < slen / 11 := by omega
  have hget : (allIndices sb slen).getD (k / 11) 0 = read11 sb (11 * (k / 11)) := by
    simp [allIndices, Config.chunkBits, List.getD_eq_getElem?_getD, hj]
  rw [indexBit, hget, getLsbD_read11 sb _ _ (Nat.mod_lt k (by omega)), Nat.div_add_mod]

end Sys2Proof.Machine
end

