-- ==== Sys2Proof/Tests/Slice0.lean ====
section
/-! SUPPORT. Tests. Expected results come from the spec's vectors (spec/95_test_vectors.md, V and P numbers) or by hand from
its tables. Then one witness for each statement with hypotheses: a state and operands that meet them all, with the values
at the ends of their ranges. -/

namespace Sys2Proof.Tests

open Sys2Proof.Machine

/-! ### Helpers -/

/-- An engine that holds "abc". -/
def abcEngine : Live :=
  { h := hInit, buf := [(0, 0x61#8), (1, 0x62#8), (2, 0x63#8)], fill := 3, total := 3#64, phase := .accumulating }

/-- An engine that has counted 2^61 - 1 bytes, the last 63 of them zeros. -/
def fullEngine : Live :=
  { h := hInit, buf := [], fill := 63, total := BitVec.ofNat 64 2305843009213693951, phase := .accumulating }

/-- A state in the middle of its work: the engine holds "abc", the stream is eleven ones, `cmds` are issued. -/
def busy (cmds : List (List Byte)) : State :=
  { he := .live abcEngine, sb := [(0, 0xFF#8), (1, 0xE0#8)], slen := 11, pos := 0, inbox := cmds, out := [.endOfStream] }

/-- A finalized engine beside an empty stream. -/
def spent : State := { State.reset with he := .finalized }

/-- A state with this stream, and the cursor at its start. -/
def streaming (sb : Memory) (slen : Nat) : State := { State.reset with sb := sb, slen := slen }

/-- The bytes of the response a command gives; none where it gives no next state. -/
def answer (o : Host.Outcome State Fault Refusal) : Option (List Byte) :=
  match o with
  | .next t => t.out.getLast?.map Response.bytes
  | .fault _ => none
  | .refused _ => none

/-- The bytes of the stream a command leaves, and `SLEN` and `POS`. -/
def streamAfter (n : Nat) (o : Host.Outcome State Fault Refusal) : Option (List Byte × Nat × Nat) :=
  match o with
  | .next t => some (t.sb.readBytes 0 n, t.slen, t.pos)
  | .fault _ => none
  | .refused _ => none

/-- The refusal a command gives. -/
def refusal (o : Host.Outcome State Fault Refusal) : Option Refusal :=
  match o with
  | .next _ => none
  | .fault _ => none
  | .refused r => some r

/-! ### Well-formedness: one ill-formed term for each check -/

theorem test_update_too_long_ill_formed : (Instr.heUpdate (List.replicate (2 ^ 64) 0)).wellFormed = false := by
  rw [Instr.wellFormed, List.length_replicate]
  decide

theorem test_hash_too_long_ill_formed : (Instr.heHash (List.replicate (2 ^ 64) 0)).wellFormed = false := by
  rw [Instr.wellFormed, List.length_replicate]
  decide

theorem test_load_nbits_ill_formed : (Instr.sbLoad 65536 []).wellFormed = false := by decide

theorem test_load_short_ill_formed : (Instr.sbLoad 16 [0xFF#8]).wellFormed = false := by decide

theorem test_load_well_formed : (Instr.sbLoad 12 [0xFF#8, 0xFF#8]).wellFormed = true := by decide

/-! ### Decoding: one word for each constructor, and the words that decode to none -/

/-- V69. -/
theorem test_decode_heInit : decode [0b00000000#8] = .command .heInit := by decide

/-- V70. -/
theorem test_decode_heUpdate :
    decode [0b00000001#8, 0, 0, 0, 0, 0, 0, 0, 3, 0x61#8, 0x62#8, 0x63#8] = .command (.heUpdate [0x61#8, 0x62#8, 0x63#8]) := by
  decide

/-- V72. -/
theorem test_decode_heFinal : decode [0b00000010#8] = .command .heFinal := by decide

/-- P4, step 1. -/
theorem test_decode_heHash :
    decode [0b00000011#8, 0, 0, 0, 0, 0, 0, 0, 3, 0x61#8, 0x62#8, 0x63#8] = .command (.heHash [0x61#8, 0x62#8, 0x63#8]) := by
  decide

/-- R77, V55: `NBITS` is big-endian, 0x000C = 12. -/
theorem test_decode_sbLoad :
    decode [0b00010000#8, 0x00#8, 0x0C#8, 0xFF#8, 0xFF#8] = .command (.sbLoad 12 [0xFF#8, 0xFF#8]) := by decide

/-- P4, step 6: 0x0109 = 265 decodes; the command answers for it. -/
theorem test_decode_sbLoad_265 :
    decode (0x10#8 :: 0x01#8 :: 0x09#8 :: List.replicate 34 0) = .command (.sbLoad 265 (List.replicate 34 0)) := by
  decide +kernel

/-- V75. -/
theorem test_decode_csAppend : decode [0b00010001#8] = .command .csAppend := by decide

/-- V76. -/
theorem test_decode_bcxNext : decode [0b00100000#8] = .command .bcxNext := by decide

/-- V79. -/
theorem test_decode_bcxAll : decode [0b00100001#8] = .command .bcxAll := by decide

/-- V63: illegal opcodes, whatever follows. -/
theorem test_decode_illegal :
    decode [0x04#8] = .illegal 0x04#8 ∧ decode [0x0F#8, 1] = .illegal 0x0F#8 ∧ decode [0x12#8] = .illegal 0x12#8 ∧
    decode [0x22#8] = .illegal 0x22#8 ∧ decode [0x30#8] = .illegal 0x30#8 ∧ decode [0xFF#8] = .illegal 0xFF#8 := by decide

/-- U12: one data byte short, and a length field cut off. -/
theorem test_decode_incomplete :
    decode [0x01#8, 0, 0, 0, 0, 0, 0, 0, 2, 0x61#8] = .incomplete ∧ decode [0x10#8, 0x00#8] = .incomplete ∧
    decode [0x10#8, 0x00#8, 0x10#8, 0xFF#8] = .incomplete := by decide

/-- Log entry 6: a byte after the command. -/
theorem test_decode_overlong :
    decode [0x00#8, 0x00#8] = .overlong ∧ decode [0x03#8, 0, 0, 0, 0, 0, 0, 0, 0, 0x61#8] = .overlong := by decide

/-- The table's numbering: byte 0 is bits 7 to 0; `SB_LOAD 0x0108` has 0x01 in bits 15 to 8 and 0x08 in bits 23 to 16. -/
theorem test_table_word : decodeTableWord 24 0x080110 = some (.sbLoad 264 (List.replicate 33 0)) := by decide +kernel

/-! ### SHA-256 (V20, V27, V28, V32) -/

theorem test_word_functions :
    rotr 0x12345678#32 7 = 0xF02468AC#32 ∧ shr 0x12345678#32 3 = 0x02468ACF#32 ∧ ssig0 0x12345678#32 = 0xE7FCE6EE#32 ∧
    ssig1 0x12345678#32 = 0xA1F78649#32 ∧ bsig0 0x6A09E667#32 = 0xCE20B47E#32 ∧ bsig1 0x510E527F#32 = 0x3587272B#32 ∧
    ch 0x510E527F#32 0x9B05688C#32 0x1F83D9AB#32 = 0x1F85C98C#32 ∧
    maj 0x6A09E667#32 0xBB67AE85#32 0x3C6EF372#32 = 0x3A6FE667#32 := by decide +kernel

/-- V20: `W[15]`, `W[16]`, `W[63]`. -/
theorem test_schedule_abc :
    (schedule (padded [0x61#8, 0x62#8, 0x63#8])).getD 15 0 = 0x00000018#32 ∧
    (schedule (padded [0x61#8, 0x62#8, 0x63#8])).getD 16 0 = 0x61626380#32 ∧
    (schedule (padded [0x61#8, 0x62#8, 0x63#8])).getD 63 0 = 0x12B1EDEB#32 := by decide +kernel

/-- V20: the working variables `a` and `e` after rounds 0 and 63. -/
theorem test_rounds_abc :
    (rounds 1 (workVars hInit) (schedule (padded [0x61#8, 0x62#8, 0x63#8]))).a = 0x5D6AEBCD#32 ∧
    (rounds 1 (workVars hInit) (schedule (padded [0x61#8, 0x62#8, 0x63#8]))).e = 0xFA2A4622#32 ∧
    (rounds 64 (workVars hInit) (schedule (padded [0x61#8, 0x62#8, 0x63#8]))).a = 0x506E3058#32 ∧
    (rounds 64 (workVars hInit) (schedule (padded [0x61#8, 0x62#8, 0x63#8]))).h = 0x961F4894#32 := by decide +kernel

/-- V32, V33: no zero byte at 55 message bytes, 63 at 56; the length field. -/
theorem test_padded :
    (padded (List.replicate 55 0x61#8)).drop 55 = [0x80#8, 0, 0, 0, 0, 0, 0, 0x01#8, 0xB8#8] ∧
    (padded (List.replicate 56 0x61#8)).length = 128 ∧
    (padded (List.replicate 56 0x61#8)).drop 126 = [0x01#8, 0xC0#8] := by decide +kernel

/-! ### Each command, one step -/

/-- V59. -/
theorem test_heInit_after_final : exec .heInit spent = .next { State.reset with out := [.ok .nothing] } := rfl

/-- V70, P1: `BUF[0..2]`, no padding yet; the response is 00. -/
theorem test_heUpdate_buffers :
    answer (step { State.reset with inbox := [[0x01#8, 0, 0, 0, 0, 0, 0, 0, 3, 0x61#8, 0x62#8, 0x63#8]] }) = some [0x00#8] ∧
    (Live.init.update [0x61#8, 0x62#8, 0x63#8]) = abcEngine := by decide

/-- V39d: the 64th byte completes the block; `FILL` is 0 and `H[0]` that of V22. -/
theorem test_heUpdate_completes_block :
    (Live.init.update (List.replicate 64 0x61#8)).fill = 0 ∧
    (Live.init.update (List.replicate 64 0x61#8)).h.h0 = 0xDF5BB81C#32 := by decide +kernel

/-- V72: the digest of "abc" (V2). -/
theorem test_heFinal_abc :
    answer (step (busy [[0x02#8]])) = some [0x00#8, 0xBA#8, 0x78#8, 0x16#8, 0xBF#8, 0x8F#8, 0x01#8, 0xCF#8, 0xEA#8, 0x41#8, 0x41#8,
      0x40#8, 0xDE#8, 0x5D#8, 0xAE#8, 0x22#8, 0x23#8, 0xB0#8, 0x03#8, 0x61#8, 0xA3#8, 0x96#8, 0x17#8, 0x7A#8, 0x9C#8, 0xB4#8,
      0x10#8, 0xFF#8, 0x61#8, 0xF2#8, 0x00#8, 0x15#8, 0xAD#8] := by decide +kernel

/-- V57. -/
theorem test_heFinal_twice : answer (exec .heFinal spent) = some [0x84#8] := by decide

/-- V73: the digest of nothing (V1). -/
theorem test_heHash_empty :
    answer (step (busy [[0x03#8, 0, 0, 0, 0, 0, 0, 0, 0]])) = some [0x00#8, 0xE3#8, 0xB0#8, 0xC4#8, 0x42#8, 0x98#8, 0xFC#8, 0x1C#8,
      0x14#8, 0x9A#8, 0xFB#8, 0xF4#8, 0xC8#8, 0x99#8, 0x6F#8, 0xB9#8, 0x24#8, 0x27#8, 0xAE#8, 0x41#8, 0xE4#8, 0x64#8, 0x9B#8,
      0x93#8, 0x4C#8, 0xA4#8, 0x95#8, 0x99#8, 0x1B#8, 0x78#8, 0x52#8, 0xB8#8, 0x55#8] := by decide +kernel

/-- V14: 120 bytes, three blocks; the first and the last digest byte. -/
theorem test_heHash_three_blocks :
    (answer (exec (.heHash (List.replicate 120 0x61#8)) State.reset)).map (fun b => (b.getD 1 0, b.getD 32 0)) =
      some (0x2F#8, 0x1C#8) := by decide +kernel

/-- V55: the bits past `nbits` are cleared, the rest of the stream replaced. -/
theorem test_sbLoad_masks :
    streamAfter 3 (exec (.sbLoad 12 [0xFF#8, 0xFF#8]) (streaming [(0, 1), (2, 7)] 22)) =
      some ([0xFF#8, 0xF0#8, 0x00#8], 12, 0) := by decide

/-- V55: too many bits, too few and too many bytes. -/
theorem test_sbLoad_bad_operand :
    answer (exec (.sbLoad 265 (List.replicate 34 0xFF#8)) State.reset) = some [0x86#8] ∧
    answer (exec (.sbLoad 16 [0xFF#8]) State.reset) = some [0x86#8] ∧
    answer (exec (.sbLoad 8 [0xFF#8, 0xFF#8]) State.reset) = some [0x86#8] := by decide

/-- V40, V75: 16 zero bytes. -/
theorem test_csAppend_zeros :
    answer (exec .csAppend (streaming [] 128)) =
      some ([0x00#8, 0x00#8, 0x84#8] ++ List.replicate 16 0x00#8 ++ [0x30#8]) := by decide +kernel

/-- V46: 32 bytes ff, a checksum of 8 bits that fills byte 32. -/
theorem test_csAppend_ones :
    streamAfter 33 (exec .csAppend (streaming ((List.range 32).map fun a => (a, 0xFF#8)) 256)) =
      some (List.replicate 32 0xFF#8 ++ [0xAF#8], 264, 0) := by decide +kernel

/-- P6, step 4: the third index of V53, over three bytes. -/
theorem test_bcxNext_three_bytes :
    answer (exec .bcxNext { streaming [(2, 0xC3#8), (3, 0x3C#8), (4, 0x96#8)] 88 with pos := 22 }) =
      some [0x00#8, 0x06#8, 0x79#8] := by decide

/-- V65. -/
theorem test_bcxNext_end : answer (exec .bcxNext State.reset) = some [0x01#8] := by decide

/-- V53. -/
theorem test_bcxAll_offsets :
    allIndices (loadStream 88 [0xA5#8, 0x5A#8, 0xC3#8, 0x3C#8, 0x96#8, 0x69#8, 0xF0#8, 0x0F#8, 0x81#8, 0x7E#8, 0xFF#8]) 88 =
      [1322, 1712, 1657, 358, 1272, 62, 47, 1791] := by decide +kernel

/-- V66. -/
theorem test_bcxAll_empty : answer (exec .bcxAll State.reset) = some [0x00#8, 0x00#8] := by decide

/-- V63, P4 step 5. -/
theorem test_illegal_opcode : answer (step { spent with inbox := [[0x7F#8]] }) = some [0x85#8] := by decide

/-! ### Witnesses -/

theorem abcEngine_inv : abcEngine.Inv where
  buf_wf := by decide
  buf_clear := by
    intro a ha
    have h3 : 3 ≤ a := ha
    simp [abcEngine, Memory.read, show a ≠ 0 by omega, show a ≠ 1 by omega, show a ≠ 2 by omega]
  fill_lt := by decide
  fill_total := by decide
  total_le := by decide
  empty_init := by intro h; cases h

theorem fullEngine_inv : fullEngine.Inv where
  buf_wf := by decide
  buf_clear := fun _ _ => rfl
  fill_lt := by decide
  fill_total := by decide
  total_le := by decide
  empty_init := by intro h; cases h

theorem abcEngine_holds : abcEngine.Holds [0x61#8, 0x62#8, 0x63#8] where
  h_eq := rfl
  buf_wf := by decide
  fill_eq := by decide
  pending_eq := by decide
  total_eq := by decide

theorem busy_inv (cmds : List (List Byte)) : (busy cmds).Inv where
  he_inv := by
    intro e h
    cases h
    exact abcEngine_inv
  sb_wf := (by decide : Memory.wf 33 [(0, 0xFF#8), (1, 0xE0#8)] = true)
  slen_le := (by decide : 11 ≤ 264)
  sb_clear := by
    have h : ∀ k, k < 264 → 11 ≤ k → streamBit [(0, 0xFF#8), (1, 0xE0#8)] k = false := by decide +kernel
    exact fun k h1 h2 => h k h2 h1
  pos_le := (by decide : 0 ≤ 11)
  pos_mod := (by decide : 0 % 11 = 0)

/-- The end of `RotateAndShiftBits`' ranges: least and greatest `n`, first and last bit, and the first bit shifted in. -/
theorem test_witness_rotate :
    (0 < 1 ∧ 1 < 32 ∧ 31 < 32 ∧ 32 - 1 ≤ 31) ∧ (0 < 31 ∧ 31 < 32 ∧ 0 < 32 ∧ 1 < 32 ∧ 32 - 31 ≤ 1) := by decide

/-- `ChooseAndMajorityBits`, `SigmaFunctionBits`: the first and the last bit. -/
theorem test_witness_bit : 0 < 32 ∧ 31 < 32 := by decide

/-- `ConstantsAreRootsOfPrimes`: the first and the last word of each table. -/
theorem test_witness_constants : (0 < 8 ∧ 7 < 8) ∧ (0 < 64 ∧ 63 < 64) := by decide

/-- `ScheduleWords`: the words where the two clauses meet, and the last. -/
theorem test_witness_schedule : (15 < 16) ∧ (16 ≤ 16 ∧ 16 < 64) ∧ (16 ≤ 63 ∧ 63 < 64) := by decide

/-- `DigestIsBigEndian`: the last word, its last byte. -/
theorem test_witness_digest :
    [hInit.h0, hInit.h1, hInit.h2, hInit.h3, hInit.h4, hInit.h5, hInit.h6, hInit.h7][7]? = some 0x5BE0CD19#32 ∧ 3 < 4 := by
  decide

/-- `PaddedMessageLayout`: the longest message; and a message with one zero byte. -/
theorem test_witness_padded :
    (List.replicate (2 ^ 61 - 1) (0 : Byte)).length ≤ 2 ^ 61 - 1 ∧ (List.replicate 54 (0 : Byte)).length ≤ 2 ^ 61 - 1 ∧ 0 < 1 := by
  refine ⟨?_, ?_, by decide⟩
  · rw [List.length_replicate]
  · decide

/-- `PadRunsOneOrTwoBlocks`: `FILL` 55, 56 and 63. -/
theorem test_witness_pad :
    (({ abcEngine with fill := 55 } : Live).buf.wf 64 = true ∧ ({ abcEngine with fill := 55 } : Live).fill < 64 ∧
      ({ abcEngine with fill := 55 } : Live).fill ≤ 55) ∧
    (({ abcEngine with fill := 56 } : Live).buf.wf 64 = true ∧ ({ abcEngine with fill := 56 } : Live).fill < 64 ∧
      ¬ ({ abcEngine with fill := 56 } : Live).fill ≤ 55) ∧
    (fullEngine.buf.wf 64 = true ∧ fullEngine.fill < 64) := by decide

/-- `ResetValues`, its last clause: the last byte of `SB`. -/
theorem test_witness_sb_byte : 32 < 33 := by decide

/-- `StepKeepsInvariant`, `StepNeverFaults`: a state that meets the invariant and steps. -/
theorem test_witness_step_inv : (busy [[0x21#8]]).Inv ∧ ∃ t, step (busy [[0x21#8]]) = .next t := ⟨busy_inv _, _, rfl⟩

/-- `DecodeOfEncode`. -/
theorem test_witness_encode : (Instr.sbLoad 264 (List.replicate 33 0xFF#8)).wellFormed = true := by decide

/-- `EncodeOfDecode`. -/
theorem test_witness_decode : decode [0x10#8, 0x00#8, 0x01#8, 0x80#8] = .command (.sbLoad 1 [0x80#8]) := by decide

/-- `StepRunsTheCommand`, both clauses. -/
theorem test_witness_step_runs :
    (busy [[0x11#8], [0x20#8]]).inbox = [0x11#8] :: [[0x20#8]] ∧ decode [0x11#8] = .command .csAppend ∧
    Instr.csAppend.wellFormed = true ∧ (busy [[0x11#8], [0x20#8]]).inbox = encode .csAppend :: [[0x20#8]] := by decide

/-- `IllegalOpcodeFaults`: the ends of the three ranges of R80. -/
theorem test_witness_illegal :
    (∀ op ∈ [0x04#8, 0x0F#8, 0x12#8, 0x1F#8, 0x22#8, 0xFF#8],
      op ∉ [0x00#8, 0x01#8, 0x02#8, 0x03#8, 0x10#8, 0x11#8, 0x20#8, 0x21#8]) ∧
    (busy [[0x7F#8, 0x00#8]]).inbox = (0x7F#8 :: [0x00#8]) :: [] := by decide

/-- `IncompleteSequenceRefused`: cut in the length field, before the data, and one byte before the end. -/
theorem test_witness_incomplete :
    (Instr.sbLoad 12 [0xFF#8, 0xF0#8]).wellFormed = true ∧
    (∀ nbits data, Instr.sbLoad 12 [0xFF#8, 0xF0#8] = .sbLoad nbits data → data.length = (nbits + 7) / 8) ∧
    (∀ n ∈ [0, 2, 3, 4], n < (encode (.sbLoad 12 [0xFF#8, 0xF0#8])).length) ∧
    (busy [[0x10#8, 0x00#8, 0x0C#8, 0xFF#8]]).inbox = (encode (.sbLoad 12 [0xFF#8, 0xF0#8])).take 4 :: [] := by
  refine ⟨by decide, ?_, by decide, by decide⟩
  intro nbits data h
  cases h
  rfl

/-- `NothingIssuedHoldsState`. -/
theorem test_witness_idle : (busy []).inbox = [] := rfl

/-- `RunOfEncodedCommands`. -/
theorem test_witness_run :
    (∀ i ∈ [Instr.heInit, .sbLoad 8 [0x01#8]], i.wellFormed = true) ∧
    (busy [[0x00#8], [0x10#8, 0x00#8, 0x08#8, 0x01#8], [0x7F#8]]).inbox =
      [Instr.heInit, .sbLoad 8 [0x01#8]].map encode ++ [[0x7F#8]] := by decide

/-- `HeUpdateAbsorbsData`: an engine part filled, and one with no byte left to count. -/
theorem test_witness_update :
    ((busy []).he = .live abcEngine ∧ abcEngine.Inv ∧ abcEngine.total.toNat + [0x64#8].length ≤ 2 ^ 61 - 1) ∧
    ({ State.reset with he := .live fullEngine }.he = .live fullEngine ∧ fullEngine.Inv ∧
      fullEngine.total.toNat + ([] : List Byte).length ≤ 2 ^ 61 - 1) :=
  ⟨⟨rfl, abcEngine_inv, by decide⟩, rfl, fullEngine_inv, by decide⟩

/-- `HeUpdateOnlyBuffers`: 60 bytes behind the three buffered, one short of the block. -/
theorem test_witness_update_buffers :
    (busy []).he = .live abcEngine ∧ abcEngine.Inv ∧ (List.replicate 60 0x61#8).length < 64 - abcEngine.fill ∧
    (∃ t, exec (.heUpdate (List.replicate 60 0x61#8)) (busy []) = .next t) ∧ 2 < abcEngine.fill ∧
    59 < (List.replicate 60 0x61#8).length :=
  ⟨rfl, abcEngine_inv, by decide, ⟨_, rfl⟩, by decide, by decide⟩

/-- `HeUpdateSplits`. -/
theorem test_witness_update_splits :
    (busy []).he = .live abcEngine ∧ abcEngine.Inv ∧
    abcEngine.total.toNat + ([0x64#8] ++ [0x65#8, 0x66#8]).length ≤ 2 ^ 61 - 1 :=
  ⟨rfl, abcEngine_inv, by decide⟩

/-- `HeFinalCompletes`: the fullest engine. -/
theorem test_witness_final : { State.reset with he := .live fullEngine }.he = .live fullEngine ∧ fullEngine.fill < 64 :=
  ⟨rfl, by decide⟩

/-- `HeFinalReturnsDigest`. -/
theorem test_witness_final_digest :
    (busy []).he = .live abcEngine ∧ abcEngine.Holds [0x61#8, 0x62#8, 0x63#8] ∧ [0x61#8, 0x62#8, 0x63#8].length ≤ 2 ^ 61 - 1 :=
  ⟨rfl, abcEngine_holds, by decide⟩

/-- `HeHashReturnsDigest`, `HeHashIsItsSequence`, `BootState`: no byte, and as many as there may be. -/
theorem test_witness_hash :
    ([] : List Byte).length ≤ 2 ^ 61 - 1 ∧ (List.replicate (2 ^ 61 - 1) (0 : Byte)).length ≤ 2 ^ 61 - 1 :=
  ⟨by decide, by rw [List.length_replicate]⟩

/-- `StreamedDigest`, `IncrementalEqualsOneShot`. -/
theorem test_witness_pieces : [[0x61#8], [], [0x62#8, 0x63#8]].flatten.length ≤ 2 ^ 61 - 1 := by decide

/-- `FinalizedEngineFaults`. -/
theorem test_witness_finalized : spent.he = .finalized := rfl

/-- `LongMessageRefused`: one byte too many, in both clauses. -/
theorem test_witness_long :
    ({ State.reset with he := .live fullEngine }.he = .live fullEngine ∧ 2 ^ 61 - 1 < fullEngine.total.toNat + [0x61#8].length) ∧
    2 ^ 61 - 1 < (List.replicate (2 ^ 61) (0 : Byte)).length :=
  ⟨⟨rfl, by decide⟩, by rw [List.length_replicate]; decide⟩

/-- `SbLoadStoresStream`, `BootState`: the longest stream, the empty one, and one with bits to clear. -/
theorem test_witness_load :
    (264 ≤ 264 ∧ (List.replicate 33 0xFF#8).length = (264 + 7) / 8 ∧ 263 < 264) ∧
    (0 ≤ 264 ∧ ([] : List Byte).length = (0 + 7) / 8 ∧ 0 ≤ 263 ∧ 263 < 264) ∧
    (12 ≤ 264 ∧ [0xFF#8, 0xFF#8].length = (12 + 7) / 8 ∧ 11 < 12 ∧ 12 ≤ 12 ∧ 12 < 264) := by decide

/-- `BadOperandOnlyFromSbLoad`, `FaultChangesNothing`, and the third case of `FaultsByCommand`. -/
theorem test_witness_bad_operand :
    (264 < 265 ∨ (List.replicate 34 0xFF#8).length ≠ (265 + 7) / 8) ∧ (264 < 8 ∨ [0xFF#8, 0xFF#8].length ≠ (8 + 7) / 8) ∧
    exec (.sbLoad 8 [0xFF#8, 0xFF#8]) State.reset = .next { State.reset with out := State.reset.out ++ [.fault .badOperand] } := by
  refine ⟨?_, ?_, rfl⟩ <;> decide

/-- `CsAppendAppendsChecksum`: 16 bytes, with 4 checksum bits and 4 bits to clear, and 32 bytes, with 8. -/
theorem test_witness_append :
    (16 ∈ [16, 20, 24, 28, 32] ∧ (streaming [] 128).slen = 8 * 16 ∧ (streaming [] 128).sb.wf 33 = true ∧ 17 ≠ 16 ∧ 3 < 16 / 4 ∧
      16 / 4 ≤ 4 ∧ 4 < 8) ∧
    (32 ∈ [16, 20, 24, 28, 32] ∧ (streaming [(31, 1)] 256).slen = 8 * 32 ∧ (streaming [(31, 1)] 256).sb.wf 33 = true ∧
      7 < 32 / 4) := by decide

/-- `CsAppendInvalidSize`: empty (V60), 17 bytes (V61), after one `CS_APPEND` (V62). -/
theorem test_witness_invalid_size :
    ∀ n ∈ [0, 136, 132, 127, 129, 264], (streaming [] n).slen ∉ [128, 160, 192, 224, 256] := by decide

/-- `CsAppendOnlyOnce`: after a success, and after a fault. -/
theorem test_witness_append_once :
    (∃ t, exec .csAppend (streaming [] 128) = .next t) ∧ ∃ t, exec .csAppend State.reset = .next t := ⟨⟨_, rfl⟩, _, rfl⟩

/-- `BcxNextReadsEleven`: the first index of the shortest stream, the last of the longest. -/
theorem test_witness_next :
    ((busy []).slen % 11 = 0 ∧ (busy []).pos + 11 ≤ (busy []).slen ∧ (busy []).slen ≤ 264 ∧ 10 < 11) ∧
    ({ streaming [] 264 with pos := 253 }.slen % 11 = 0 ∧
      { streaming [] 264 with pos := 253 }.pos + 11 ≤ { streaming [] 264 with pos := 253 }.slen ∧
      { streaming [] 264 with pos := 253 }.slen ≤ 264) := by decide

/-- `BcxNextEndOfStream`: the empty stream, and the longest read through. -/
theorem test_witness_next_end :
    (State.reset.slen % 11 = 0 ∧ State.reset.pos = State.reset.slen) ∧
    ({ streaming [] 264 with pos := 264 }.slen % 11 = 0 ∧
      { streaming [] 264 with pos := 264 }.pos = { streaming [] 264 with pos := 264 }.slen) := by decide

/-- `ExtractorRefusesOtherLengths` (V64). -/
theorem test_witness_other_length : (streaming [] 128).slen % 11 ≠ 0 ∧ (streaming [] 10).slen % 11 ≠ 0 := by decide

/-- `BcxAllReturnsIndices`, `NextUntilEndIsAll`: the empty, the shortest and the longest stream. -/
theorem test_witness_all :
    (State.reset.slen % 11 = 0 ∧ State.reset.slen ≤ 264 ∧ State.reset.pos = 0) ∧
    ((busy []).slen % 11 = 0 ∧ (busy []).slen ≤ 264 ∧ (busy []).pos = 0 ∧ 10 < (busy []).slen) ∧
    ((streaming [] 264).slen % 11 = 0 ∧ (streaming [] 264).slen ≤ 264 ∧ (streaming [] 264).pos = 0) := by decide

/-- `EveryIndexSequenceHasAStream`: none, and 24. -/
theorem test_witness_sequence :
    ([] : List Index).length ≤ 24 ∧ (List.replicate 24 (2047 : Index)).length ≤ 24 := by decide

/-- `IndicesDetermineStream`: two states that differ in their cursor and their responses. -/
theorem test_witness_indices :
    (busy []).Inv ∧ (busy [[0x02#8]]).Inv ∧ (busy []).slen = (busy [[0x02#8]]).slen ∧
    ∃ t t' r, exec .bcxAll (busy []) = .next t ∧ exec .bcxAll (busy [[0x02#8]]) = .next t' ∧
      t.out = (busy []).out ++ [r] ∧ t'.out = (busy [[0x02#8]]).out ++ [r] :=
  ⟨busy_inv _, busy_inv _, rfl, _, _, _, rfl, rfl, rfl, rfl⟩

/-- `ReadWindowForm`, its second clause, at bit offset 5, where the third byte may differ, and at 6, where it may not. -/
theorem test_witness_window :
    (Memory.read [(2, 7)] (5 / 8) = Memory.read [] (5 / 8) ∧ Memory.read [(2, 7)] (5 / 8 + 1) = Memory.read [] (5 / 8 + 1) ∧
      (6 ≤ 5 % 8 → Memory.read [(2, 7)] (5 / 8 + 2) = Memory.read [] (5 / 8 + 2))) ∧
    (Memory.read [(3, 7)] (6 / 8) = Memory.read [] (6 / 8) ∧ Memory.read [(3, 7)] (6 / 8 + 1) = Memory.read [] (6 / 8 + 1) ∧
      (6 ≤ 6 % 8 → Memory.read [(3, 7)] (6 / 8 + 2) = Memory.read [] (6 / 8 + 2))) := by decide

/-- `EntropyToIndices`: the shortest and the longest entropy. -/
theorem test_witness_entropy :
    ((List.replicate 16 0xFF#8).length ∈ [16, 20, 24, 28, 32] ∧ 127 < 8 * (List.replicate 16 0xFF#8).length ∧
      3 < (List.replicate 16 0xFF#8).length / 4) ∧
    ((List.replicate 32 0x80#8).length ∈ [16, 20, 24, 28, 32] ∧ 7 < (List.replicate 32 0x80#8).length / 4) := by decide

/-- `CommandsKeepTheOtherHalf`, `OneResponsePerCommand`, `PhaseTransitions`: a command of each half that answers, with
`End` among the responses. -/
theorem test_witness_next_state :
    (∃ t, exec (.heUpdate [0x64#8]) (busy []) = .next t ∧ isHashCommand (.heUpdate [0x64#8]) = true) ∧
    (∃ t, exec (.sbLoad 8 [0x01#8]) (busy []) = .next t ∧ isHashCommand (.sbLoad 8 [0x01#8]) = false) ∧
    (∃ t, exec .bcxNext State.reset = .next t ∧ t.out = State.reset.out ++ [.endOfStream] ∧
      (Instr.bcxNext = .bcxNext ∨ Instr.bcxNext = .bcxAll)) :=
  ⟨⟨_, rfl, rfl⟩, ⟨_, rfl, rfl⟩, _, rfl, rfl, .inl rfl⟩

/-- `HalvesDoNotSeeEachOther`: a Hash Engine command on two streams, a stream command on two engines; a refusal and a fault of
the model. -/
theorem test_witness_two_states :
    ((isHashCommand .heInit = true → (busy []).he = { State.reset with he := .live abcEngine }.he) ∧
      isHashCommand .heInit ≠ false ∧ ∃ t, exec .heInit (busy []) = .next t) ∧
    ((isHashCommand .bcxAll = false → (streaming [] 10).sb = { streaming [] 10 with he := .finalized }.sb ∧
        (streaming [] 10).slen = { streaming [] 10 with he := .finalized }.slen ∧
        (streaming [] 10).pos = { streaming [] 10 with he := .finalized }.pos) ∧
      isHashCommand .bcxAll ≠ true ∧ exec .bcxAll (streaming [] 10) = .refused .streamNotMultipleOf11) ∧
    exec .bcxAll (streaming [] 275) = .fault .sbIndexOutOfRange :=
  ⟨⟨fun _ => rfl, by decide, _, rfl⟩, ⟨fun _ => ⟨rfl, rfl, rfl⟩, by decide, rfl⟩, rfl⟩

/-- `HalvesCommute`. -/
theorem test_witness_commute :
    isHashCommand .heInit = true ∧ isHashCommand .bcxAll = false ∧
    ∃ a b, exec .heInit (busy []) = .next a ∧ exec .bcxAll a = .next b := ⟨rfl, rfl, _, _, rfl, rfl⟩

/-- `FaultsByCommand`, `FaultChangesNothing`: its first two cases. -/
theorem test_witness_faults :
    (∃ t, exec .heFinal spent = .next t ∧ t.out = spent.out ++ [.fault .useAfterFinalize]) ∧
    (∃ t, exec (.heUpdate []) spent = .next t ∧ t.out = spent.out ++ [.fault .useAfterFinalize]) ∧
    (∃ t, exec .csAppend State.reset = .next t ∧ t.out = State.reset.out ++ [.fault .invalidSize]) :=
  ⟨⟨_, rfl, rfl⟩, ⟨_, rfl, rfl⟩, _, rfl, rfl⟩

/-- `RefusalsExactly`, either side (V64, V67). -/
theorem test_witness_refusals :
    refusal (exec (.heUpdate [0x61#8]) { State.reset with he := .live fullEngine }) = some .messageTooLong ∧
    refusal (exec .bcxNext (streaming [] 128)) = some .streamNotMultipleOf11 ∧
    refusal (exec .bcxAll (streaming [] 128)) = some .streamNotMultipleOf11 := by decide

/-- `CursorRewound`, its five clauses: the first load rewinds a cursor at the end and changes `SB`. -/
theorem test_witness_cursor :
    (∃ t, exec (.sbLoad 8 [0x01#8]) { busy [] with pos := 11 } = .next t ∧ t.out = (busy []).out ++ [.ok .nothing] ∧
      t.sb ≠ (busy []).sb ∧ { busy [] with pos := 11 }.pos ≤ (busy []).slen ∧ t.pos < 11) ∧
    (∃ t n bs, exec .csAppend (streaming [] 128) = .next t ∧ t.out = (streaming [] 128).out ++ [.ok (.stream n bs)]) ∧
    (∃ t, exec .bcxAll (busy []) = .next t) :=
  ⟨⟨_, rfl, rfl, by decide, by decide, by decide⟩, ⟨_, _, _, rfl, rfl⟩, _, rfl⟩

/-- `ResponseByteLayout`: the longest stream and the longest sequence. -/
theorem test_witness_response : 264 ≤ 264 ∧ (List.replicate 24 (2047 : Index)).length ≤ 24 := by decide

end Sys2Proof.Tests
end

section
/-! PROOFS. Scope: a step runs the command issued next, a run of encoded commands is their execution in order, and no
state that meets the invariant steps to a fault. -/

namespace Sys2Proof.Machine

/-! ### The encoding and the step -/

/-- A well-formed command decodes from its encoding (R76 to R78): each opcode byte selects its own format. -/
theorem decode_encode {i : Instr} (hi : i.wellFormed = true) : decode (encode i) = .command i := by
  cases i with
  | heInit => rfl
  | heFinal => rfl
  | csAppend => rfl
  | bcxNext => rfl
  | bcxAll => rfl
  | heUpdate data => exact decodeD_command.mpr ⟨data, of_decide_eq_true hi, rfl, rfl⟩
  | heHash data => exact decodeD_command.mpr ⟨data, of_decide_eq_true hi, rfl, rfl⟩
  | sbLoad nbits data =>
    obtain ⟨hn, hl⟩ := Bool.and_eq_true_iff.mp hi
    exact decodeS_command.mpr ⟨nbits, data, of_decide_eq_true hn, of_decide_eq_true hl, rfl, rfl⟩

/-- The step when the bytes issued next decode to a command. -/
theorem step_of_decode_command {s : State} {cmd : List Byte} {more : List (List Byte)} {i : Instr}
    (hs : s.inbox = cmd :: more) (hd : decode cmd = .command i) : step s = exec i { s with inbox := more } := by
  simp only [step, fetch, hs, hd]

/-- The step when a well-formed command is issued next as its encoding. -/
theorem step_of_encode {s : State} {more : List (List Byte)} {i : Instr}
    (hi : i.wellFormed = true) (hs : s.inbox = encode i :: more) : step s = exec i { s with inbox := more } :=
  step_of_decode_command hs (decode_encode hi)

/-- Settles O8: both clauses are the step's equation, the second through the round trip of the encoding. -/
theorem stepRunsTheCommand : Obligations.StepRunsTheCommand :=
  ⟨fun _ _ _ _ => step_of_decode_command, fun _ _ _ => step_of_encode⟩

/-! ### Runs of encoded commands -/

/-- Putting back what is issued already changes nothing. -/
theorem State.setInbox_self {s : State} {x : List (List Byte)} (h : s.inbox = x) : { s with inbox := x } = s := by
  rw [← h]

/-- A command leaves what the host is yet to issue as it was. -/
theorem exec_next_inbox {i : Instr} {s t : State} (h : exec i s = .next t) : t.inbox = s.inbox := by
  have hs := exec_setInbox i s s.inbox
  rw [h] at hs
  injection hs with ht
  rw [ht]

/-- Settles O12, by induction on the commands: the first step is the first command, which neither sees nor changes what waits
behind it. -/
theorem runOfEncodedCommands : Obligations.RunOfEncodedCommands := by
  unfold Obligations.RunOfEncodedCommands
  intro is s more hwf hs
  induction is generalizing s with
  | nil => exact congrArg Host.Outcome.next (State.setInbox_self hs).symm
  | cons i is ih =>
    obtain ⟨hi, his⟩ := List.forall_mem_cons.mp hwf
    have hstep : step s = exec i { s with inbox := is.map encode ++ more } := step_of_encode hi hs
    rw [List.length_cons, core_run_succ, hstep, exec_setInbox i { s with inbox := more }, execSeq]
    cases ho : exec i { s with inbox := more } with
    | next t =>
      have hrest : core.run is.length { t with inbox := is.map encode ++ more } = execSeq is { t with inbox := more } :=
        ih _ his rfl
      exact hrest.trans (congrArg (execSeq is) (State.setInbox_self (exec_next_inbox ho)))
    | fault f => rfl
    | refused r => rfl

/-! ### Faults of the model -/

section
variable {s : State} {f : Fault}

theorem execHeUpdate_fault {data : List Byte} (h : execHeUpdate data s = .fault f) :
    ∃ e, s.he = .live e ∧ Config.blockBytes ≤ e.fill := by
  unfold execHeUpdate at h
  split at h
  · cases h
  · split at h
    · cases h
    · split at h
      · exact ⟨_, ‹_›, ‹_›⟩
      · cases h

theorem execHeFinal_fault (h : execHeFinal s = .fault f) : ∃ e, s.he = .live e ∧ Config.blockBytes ≤ e.fill := by
  unfold execHeFinal at h
  split at h
  · cases h
  · split at h
    · exact ⟨_, ‹_›, ‹_›⟩
    · cases h

theorem execHeHash_ne_fault (data : List Byte) : execHeHash data s ≠ .fault f := by
  unfold execHeHash
  split <;> exact nofun

theorem execSbLoad_ne_fault (nbits : Nat) (data : List Byte) : execSbLoad nbits data s ≠ .fault f := by
  unfold execSbLoad
  split <;> exact nofun

theorem execCsAppend_ne_fault : execCsAppend s ≠ .fault f := by
  unfold execCsAppend
  split <;> exact nofun

theorem execBcxNext_fault (h : execBcxNext s = .fault f) :
    s.slen % 11 = 0 ∧ s.pos ≠ s.slen ∧ (s.slen < s.pos + 11 ∨ 264 < s.slen) := by
  unfold execBcxNext at h
  split at h
  · cases h
  · split at h
    · cases h
    · split at h
      · exact ⟨Decidable.not_not.mp ‹_›, ‹_›, ‹_›⟩
      · cases h

theorem execBcxAll_fault (h : execBcxAll s = .fault f) : 264 < s.slen := by
  unfold execBcxAll at h
  split at h
  · cases h
  · split at h
    · assumption
    · cases h

/-- A cursor that is a multiple of 11 and not at the end of a stream of whole indices has a whole index ahead of it. -/
theorem State.Inv.pos_add_le (hs : s.Inv) (hm : s.slen % 11 = 0) (hp : s.pos ≠ s.slen) :
    s.pos + 11 ≤ s.slen := by
  have hle := hs.pos_le
  have hmod : s.pos % 11 = 0 := hs.pos_mod
  omega

/-- What is issued next is no part of the invariant. -/
theorem State.Inv.setInbox (hs : s.Inv) (x : List (List Byte)) : State.Inv { s with inbox := x } :=
  ⟨hs.he_inv, hs.sb_wf, hs.slen_le, hs.sb_clear, hs.pos_le, hs.pos_mod⟩

/-- Under the invariant `FILL` is inside `BUF` and the extractor reads inside the stream, so no command faults. -/
theorem exec_ne_fault (i : Instr) (hs : s.Inv) : exec i s ≠ .fault f := by
  intro h
  have hfill : ¬ ∃ e, s.he = .live e ∧ Config.blockBytes ≤ e.fill :=
    fun ⟨e, he, hf⟩ => Nat.not_le.mpr (hs.he_inv e he).fill_lt hf
  have hslen : s.slen ≤ 264 := hs.slen_le
  cases i with
  | heInit => cases h
  | heUpdate data => exact hfill (execHeUpdate_fault h)
  | heFinal => exact hfill (execHeFinal_fault h)
  | heHash data => exact execHeHash_ne_fault data h
  | sbLoad nbits data => exact execSbLoad_ne_fault nbits data h
  | csAppend => exact execCsAppend_ne_fault h
  | bcxNext =>
    obtain ⟨hm, hp, hout⟩ := execBcxNext_fault h
    have hroom := hs.pos_add_le hm hp
    omega
  | bcxAll =>
    have hlong := execBcxAll_fault h
    omega

/-- A step faults only where the command it runs does. -/
theorem step_fault (h : step s = .fault f) :
    ∃ cmd rest i, s.inbox = cmd :: rest ∧ decode cmd = .command i ∧ exec i { s with inbox := rest } = .fault f := by
  cases hi : s.inbox with
  | nil =>
    simp only [step, fetch, hi, idle] at h
    cases h
  | cons cmd rest =>
    simp only [step, fetch, hi] at h
    cases hd : decode cmd with
    | command i => exact ⟨cmd, rest, i, rfl, hd, by simpa only [hd] using h⟩
    | illegal op => rw [hd] at h; cases h
    | incomplete => rw [hd] at h; cases h
    | overlong => rw [hd] at h; cases h

end

/-- Settles O4: a faulting step runs a faulting command, and under the invariant there is none. -/
theorem stepNeverFaults : Obligations.StepNeverFaults := by
  unfold Obligations.StepNeverFaults
  intro s f hs h
  obtain ⟨_, rest, i, _, _, hx⟩ := step_fault h
  exact exec_ne_fault i (hs.setInbox rest) hx

end Sys2Proof.Machine
end

section
/-! PROOFS. Scope: the state after reset, the invariant every step keeps, the two halves of the state (the Hash Engine, and
`SB`, `SLEN`, `POS`) that do not touch each other, the refusals, and the phase each command leaves. -/

namespace Sys2Proof.Machine

/-! ### Reset -/

/-- An empty engine meets the invariant. -/
theorem Live.inv_init : Live.init.Inv where
  buf_wf := rfl
  buf_clear _ _ := rfl
  fill_lt := by decide
  fill_total := rfl
  total_le := Nat.zero_le _
  empty_init _ := rfl

/-- Settles O1: the reset engine's words are those of `H_INIT`, and an `SB` with no byte listed reads as zeros. -/
theorem resetValues : Obligations.ResetValues :=
  ⟨Live.init, rfl, rfl, rfl, rfl, rfl, rfl, rfl, rfl, rfl, rfl, rfl, rfl, fun _ _ => rfl, rfl, rfl⟩

/-- Settles O2: the engine is an empty one, and an empty stream has only zero bits behind it. -/
theorem invariantAtReset : Obligations.InvariantAtReset where
  he_inv _ he := HashEngine.live.inj he ▸ Live.inv_init
  sb_wf := rfl
  slen_le := Nat.zero_le _
  sb_clear _ _ _ := getLsbD_unlisted _
  pos_le := Nat.le_refl _
  pos_mod := rfl

/-! ### The invariant under each update of the state -/

/-- `HE_UPDATE` within the message limit keeps the invariant of its engine. -/
theorem Live.Inv.update {e : Live} (he : e.Inv) {data : List Byte}
    (hlen : e.total.toNat + data.length ≤ Config.maxMsgBytes) : (e.update data).Inv := by
  have habs := Live.absorbs_appendBytes e data he.buf_wf he.fill_lt
  have hfill : (e.update data).fill = (e.fill + data.length) % 64 := by
    simpa [Live.update] using habs.fill_eq
  have htotal : (e.update data).total.toNat = e.total.toNat + data.length := by
    have hmax : Config.maxMsgBytes < 2 ^ 64 := by decide
    simp only [Live.update, Live.accumulate_total, Live.count_total, habs.total_eq, BitVec.toNat_add, BitVec.toNat_ofNat]
    omega
  have hmod : e.fill = e.total.toNat % 64 := he.fill_total
  exact {
    buf_wf := habs.buf_wf
    buf_clear := habs.buf_clear he.buf_clear
    fill_lt := hfill ▸ Nat.mod_lt _ (by decide)
    fill_total := by rw [hfill, htotal, hmod, Nat.mod_add_mod]; rfl
    total_le := htotal ▸ hlen
    empty_init := nofun }

section
variable {s : State}

/-- What was answered is no part of the invariant. -/
theorem State.Inv.respond (hs : s.Inv) (r : Response) : (s.respond r).Inv :=
  ⟨hs.he_inv, hs.sb_wf, hs.slen_le, hs.sb_clear, hs.pos_le, hs.pos_mod⟩

theorem State.Inv.setLive (hs : s.Inv) {e : Live} (he : e.Inv) : (s.setEngine (.live e)).Inv :=
  ⟨fun _ h => HashEngine.live.inj h ▸ he, hs.sb_wf, hs.slen_le, hs.sb_clear, hs.pos_le, hs.pos_mod⟩

theorem State.Inv.setFinalized (hs : s.Inv) : (s.setEngine .finalized).Inv :=
  ⟨nofun, hs.sb_wf, hs.slen_le, hs.sb_clear, hs.pos_le, hs.pos_mod⟩

/-- A new stream with the cursor at its start. -/
theorem State.Inv.setStream (hs : s.Inv) {sb : Memory} {n : Nat} (hwf : sb.wf Config.sbBytes = true)
    (hn : n ≤ Config.sbBits) (hclear : ∀ k, n ≤ k → k < Config.sbBits → streamBit sb k = false) :
    (s.setStream sb n 0).Inv :=
  ⟨hs.he_inv, hwf, hn, hclear, Nat.zero_le n, rfl⟩

theorem State.Inv.setPos (hs : s.Inv) {p : Nat} (hle : p ≤ s.slen) (hmod : p % Config.chunkBits = 0) :
    (s.setPos p).Inv :=
  ⟨hs.he_inv, hs.sb_wf, hs.slen_le, hs.sb_clear, hle, hmod⟩

/-! ### Every step keeps the invariant -/

/-- An accepted `SB_LOAD` leaves a canonical stream with zeros behind it. -/
theorem State.Inv.loadStream (hs : s.Inv) {nbits : Nat} {data : List Byte} (hok : streamOperandsOk nbits data = true) :
    (s.setStream (loadStream nbits data) nbits 0).Inv := by
  obtain ⟨hn, -⟩ := (streamOperandsOk_iff nbits data).mp hok
  refine hs.setStream (loadStream_wf hok) hn fun k hk _ => ?_
  rw [streamBit_loadStream k hok, decide_eq_false (Nat.not_lt.mpr hk), Bool.false_and]

/-- An admitted entropy length in bits is a multiple of 32 from 128 to 256. -/
theorem entropyLength_bounds {n : Nat} (h : isEntropyLength n = true) : 128 ≤ n ∧ n ≤ 256 ∧ n % 32 = 0 := by
  rw [isEntropyLength_iff] at h
  revert n
  decide

/-- An accepted `CS_APPEND` writes inside `SB`, and the bits behind the checksum are zeros: in its byte by the mask, in later
bytes because they were behind the entropy already. -/
theorem State.Inv.appendChecksum (hs : s.Inv) (hok : isEntropyLength s.slen = true) :
    (s.setStream (appendChecksum s.sb (s.slen / 8)) (combinedBits (s.slen / 8)) 0).Inv := by
  obtain ⟨hlo, hhi, hmod⟩ := entropyLength_bounds hok
  have hbytes : Config.sbBytes = 33 := rfl
  have hbits : Config.sbBits = 264 := rfl
  have hcs : checksumBits (s.slen / 8) = s.slen / 8 / 4 := rfl
  have hn : combinedBits (s.slen / 8) = 8 * (s.slen / 8) + s.slen / 8 / 4 := rfl
  refine hs.setStream (appendChecksum_wf hs.sb_wf (by omega)) (by omega) fun k hk hk' => ?_
  rw [streamBit_appendChecksum k hs.sb_wf]
  split
  · rw [decide_eq_false (by omega), Bool.false_and]
  · exact hs.sb_clear k (by omega) hk'

/-- Every command keeps the invariant. -/
theorem exec_keeps_inv {i : Instr} {t : State} (hs : s.Inv) (h : exec i s = .next t) : t.Inv := by
  cases i with
  | heInit =>
    rw [execHeInit_next h]
    exact (hs.setLive Live.inv_init).respond _
  | heUpdate data =>
    obtain ⟨-, rfl⟩ | ⟨e, he, hlen, -, rfl⟩ := execHeUpdate_next h
    · exact hs.respond _
    · exact (hs.setLive ((hs.he_inv e he).update hlen)).respond _
  | heFinal =>
    obtain ⟨-, rfl⟩ | ⟨e, -, -, rfl⟩ := execHeFinal_next h
    · exact hs.respond _
    · exact hs.setFinalized.respond _
  | heHash data =>
    obtain ⟨-, rfl⟩ := execHeHash_next h
    exact hs.setFinalized.respond _
  | sbLoad nbits data =>
    obtain ⟨hok, rfl⟩ | ⟨-, rfl⟩ := execSbLoad_next h
    · exact (hs.loadStream hok).respond _
    · exact hs.respond _
  | csAppend =>
    obtain ⟨hok, rfl⟩ | ⟨-, rfl⟩ := execCsAppend_next h
    · exact (hs.appendChecksum hok).respond _
    · exact hs.respond _
  | bcxNext =>
    obtain ⟨-, ⟨-, rfl⟩ | ⟨hroom, -, rfl⟩⟩ := execBcxNext_next h
    · exact hs.respond _
    · exact (hs.setPos hroom ((Nat.add_mod_right _ _).trans hs.pos_mod)).respond _
  | bcxAll =>
    obtain ⟨hm, -, rfl⟩ := execBcxAll_next h
    exact (hs.setPos (Nat.le_refl _) hm).respond _

end

/-- Settles O3: taking a command from `inbox` and answering do not touch the invariant, and every command keeps it. -/
theorem stepKeepsInvariant : Obligations.StepKeepsInvariant := by
  unfold Obligations.StepKeepsInvariant
  intro s t hs h
  obtain ⟨-, rfl⟩ | ⟨_, rest, -, ⟨_, -, hx⟩ | ⟨_, -, rfl⟩⟩ := step_next h
  · exact hs
  · exact exec_keeps_inv (hs.setInbox rest) hx
  · exact (hs.setInbox rest).respond _

/-! ### The two halves of the state -/

/-- An outcome with its next state, if it has one, passed through `f`. -/
def mapNext (f : State → State) : Host.Outcome State Fault Refusal → Host.Outcome State Fault Refusal
  | .next t => .next (f t)
  | .fault x => .fault x
  | .refused q => .refused q

@[simp] theorem mapNext_eq_next {f : State → State} {o : Host.Outcome State Fault Refusal} {t : State} :
    mapNext f o = .next t ↔ ∃ u, o = .next u ∧ f u = t := by
  cases o <;> simp [mapNext]

@[simp] theorem mapNext_eq_fault {f : State → State} {o : Host.Outcome State Fault Refusal} {x : Fault} :
    mapNext f o = .fault x ↔ o = .fault x := by
  cases o <;> simp [mapNext]

@[simp] theorem mapNext_eq_refused {f : State → State} {o : Host.Outcome State Fault Refusal} {q : Refusal} :
    mapNext f o = .refused q ↔ o = .refused q := by
  cases o <;> simp [mapNext]

/-- The state after reset but for the half of `s` the command `i` belongs to. -/
def State.half (i : Instr) (s : State) : State :=
  if isHashCommand i then { State.reset with he := s.he }
  else { State.reset with sb := s.sb, slen := s.slen, pos := s.pos }

/-- `s` with the half the command `i` belongs to taken from `u`, and the responses of `u` returned after its own. -/
def State.putHalf (i : Instr) (s u : State) : State :=
  if isHashCommand i then { s with he := u.he, out := s.out ++ u.out }
  else { s with sb := u.sb, slen := u.slen, pos := u.pos, out := s.out ++ u.out }

section
variable {i : Instr} {s s' u t : State}

theorem State.half_of_hash (hi : isHashCommand i = true) : s.half i = { State.reset with he := s.he } := if_pos hi

theorem State.half_of_stream (hi : isHashCommand i = false) :
    s.half i = { State.reset with sb := s.sb, slen := s.slen, pos := s.pos } := if_neg (by simp [hi])

theorem State.putHalf_of_hash (hi : isHashCommand i = true) :
    s.putHalf i u = { s with he := u.he, out := s.out ++ u.out } := if_pos hi

theorem State.putHalf_of_stream (hi : isHashCommand i = false) :
    s.putHalf i u = { s with sb := u.sb, slen := u.slen, pos := u.pos, out := s.out ++ u.out } := if_neg (by simp [hi])

@[simp] theorem State.putHalf_out : (s.putHalf i u).out = s.out ++ u.out := by
  unfold State.putHalf
  split <;> rfl

/-- A command sees and writes its own half alone: on any state it does what it does on that half beside a reset other half
(R38, R151). -/
theorem exec_eq_half (i : Instr) (s : State) : exec i s = mapNext (s.putHalf i) (exec i (s.half i)) := by
  obtain ⟨he, sb, slen, pos, inbox, out⟩ := s
  cases i with
  | heInit => rfl
  | heUpdate data =>
    cases he with
    | finalized => rfl
    | live e => simp only [exec, execHeUpdate, State.half_of_hash (i := .heUpdate data) rfl, apply_ite (mapNext _)]; rfl
  | heFinal =>
    cases he with
    | finalized => rfl
    | live e => simp only [exec, execHeFinal, State.half_of_hash (i := .heFinal) rfl, apply_ite (mapNext _)]; rfl
  | heHash data => simp only [exec, execHeHash, apply_ite (mapNext _)]; rfl
  | sbLoad nbits data => simp only [exec, execSbLoad, apply_ite (mapNext _)]; rfl
  | csAppend => simp only [exec, execCsAppend, apply_ite (mapNext _)]; rfl
  | bcxNext => simp only [exec, execBcxNext, apply_ite (mapNext _)]; rfl
  | bcxAll => simp only [exec, execBcxAll, apply_ite (mapNext _)]; rfl

/-- The next state of a command: the one it was given, with the half and the response of the run on that half. -/
theorem exec_next_iff_half : exec i s = .next t ↔ ∃ u, exec i (s.half i) = .next u ∧ s.putHalf i u = t := by
  rw [exec_eq_half, mapNext_eq_next]

theorem exec_fault_iff_half {f : Fault} : exec i s = .fault f ↔ exec i (s.half i) = .fault f := by
  rw [exec_eq_half, mapNext_eq_fault]

theorem exec_refused_iff_half {q : Refusal} : exec i s = .refused q ↔ exec i (s.half i) = .refused q := by
  rw [exec_eq_half, mapNext_eq_refused]

/-- A Hash Engine command leaves the stream alone. -/
theorem exec_hash_frame (hi : isHashCommand i = true) (h : exec i s = .next t) :
    t.sb = s.sb ∧ t.slen = s.slen ∧ t.pos = s.pos := by
  obtain ⟨u, -, rfl⟩ := exec_next_iff_half.mp h
  rw [State.putHalf_of_hash hi]
  exact ⟨rfl, rfl, rfl⟩

/-- A command of the other half leaves the Hash Engine alone. -/
theorem exec_stream_frame (hi : isHashCommand i = false) (h : exec i s = .next t) : t.he = s.he := by
  obtain ⟨u, -, rfl⟩ := exec_next_iff_half.mp h
  rw [State.putHalf_of_stream hi]

/-- Every command that completes answers once (R79). -/
theorem exec_next_out (h : exec i s = .next t) : ∃ r, t.out = s.out ++ [r] := by
  cases i with
  | heInit => exact ⟨_, congrArg State.out (execHeInit_next h)⟩
  | heUpdate data =>
    obtain ⟨-, rfl⟩ | ⟨e, -, -, -, rfl⟩ := execHeUpdate_next h <;> exact ⟨_, rfl⟩
  | heFinal =>
    obtain ⟨-, rfl⟩ | ⟨e, -, -, rfl⟩ := execHeFinal_next h <;> exact ⟨_, rfl⟩
  | heHash data => exact ⟨_, congrArg State.out (execHeHash_next h).2⟩
  | sbLoad nbits data =>
    obtain ⟨-, rfl⟩ | ⟨-, rfl⟩ := execSbLoad_next h <;> exact ⟨_, rfl⟩
  | csAppend =>
    obtain ⟨-, rfl⟩ | ⟨-, rfl⟩ := execCsAppend_next h <;> exact ⟨_, rfl⟩
  | bcxNext =>
    obtain ⟨-, ⟨-, rfl⟩ | ⟨-, -, rfl⟩⟩ := execBcxNext_next h <;> exact ⟨_, rfl⟩
  | bcxAll => exact ⟨_, congrArg State.out (execBcxAll_next h).2.2⟩

/-- An extractor command moves the cursor alone (R162, R164). -/
theorem exec_extractor_frame (hi : i = .bcxNext ∨ i = .bcxAll) (h : exec i s = .next t) :
    t.sb = s.sb ∧ t.slen = s.slen := by
  obtain rfl | rfl := hi
  · obtain ⟨-, ⟨-, rfl⟩ | ⟨-, -, rfl⟩⟩ := execBcxNext_next h <;> exact ⟨rfl, rfl⟩
  · obtain ⟨-, -, rfl⟩ := execBcxAll_next h
    exact ⟨rfl, rfl⟩

/-- States that agree on the half of a command have the same such half. -/
theorem State.half_congr (hhash : isHashCommand i = true → s.he = s'.he)
    (hstream : isHashCommand i = false → s.sb = s'.sb ∧ s.slen = s'.slen ∧ s.pos = s'.pos) : s.half i = s'.half i := by
  cases hi : isHashCommand i with
  | true => rw [State.half_of_hash hi, State.half_of_hash hi, hhash hi]
  | false =>
    obtain ⟨hsb, hslen, hpos⟩ := hstream hi
    rw [State.half_of_stream hi, State.half_of_stream hi, hsb, hslen, hpos]

end

/-- Settles O48: the frame of each half, and that of the extractor. -/
theorem commandsKeepTheOtherHalf : Obligations.CommandsKeepTheOtherHalf := fun _ _ _ h =>
  ⟨fun hi => exec_hash_frame hi h, fun hi => exec_stream_frame hi h, fun hi => exec_extractor_frame hi h⟩

/-- Settles O49: on either state the outcome is that of the run on the half they share. -/
theorem halvesDoNotSeeEachOther : Obligations.HalvesDoNotSeeEachOther := by
  unfold Obligations.HalvesDoNotSeeEachOther
  intro i s s' hhash hstream
  have hhalf : s.half i = s'.half i := State.half_congr hhash hstream
  refine ⟨fun t ht => ?_, fun f hf => ?_, fun q hq => ?_⟩
  · obtain ⟨u, hu, rfl⟩ := exec_next_iff_half.mp ht
    obtain ⟨r, hr⟩ := exec_next_out ht
    have hur : u.out = [r] := List.append_cancel_left (State.putHalf_out.symm.trans hr)
    refine ⟨s'.putHalf i u, r, exec_next_iff_half.mpr ⟨u, hhalf ▸ hu, rfl⟩, hr, by rw [State.putHalf_out, hur],
      fun hi => ?_, fun hi => ?_⟩
    · rw [State.putHalf_of_hash hi, State.putHalf_of_hash hi]
    · rw [State.putHalf_of_stream hi, State.putHalf_of_stream hi]
      exact ⟨rfl, rfl, rfl⟩
  · exact exec_fault_iff_half.mpr (hhalf ▸ exec_fault_iff_half.mp hf)
  · exact exec_refused_iff_half.mpr (hhalf ▸ exec_refused_iff_half.mp hq)

/-- Settles O50: each command finds its half as it was, whether the other has run or not. -/
theorem halvesCommute : Obligations.HalvesCommute := by
  unfold Obligations.HalvesCommute
  intro i j s a b hi hj ha hb
  obtain ⟨u, hu, rfl⟩ := exec_next_iff_half.mp ha
  obtain ⟨v, hv, rfl⟩ := exec_next_iff_half.mp hb
  have hjhalf : (s.putHalf i u).half j = s.half j := by
    rw [State.half_of_stream hj, State.half_of_stream hj, State.putHalf_of_hash hi]
  have hihalf : (s.putHalf j v).half i = s.half i := by
    rw [State.half_of_hash hi, State.half_of_hash hi, State.putHalf_of_stream hj]
  refine ⟨s.putHalf j v, (s.putHalf j v).putHalf i u, exec_next_iff_half.mpr ⟨v, hjhalf ▸ hv, rfl⟩,
    exec_next_iff_half.mpr ⟨u, hihalf.symm ▸ hu, rfl⟩, ?_⟩
  simp only [State.putHalf_of_hash hi, State.putHalf_of_stream hj, and_self]

/-! ### Refusals -/

section
variable {s : State} {q : Refusal}

/-- A guard that refuses, before what refuses nothing, is the only refusal. -/
theorem ite_refused_iff {p : Prop} [Decidable p] {r : Refusal} {o : Host.Outcome State Fault Refusal}
    (ho : o ≠ .refused q) : (if p then .refused r else o) = .refused q ↔ q = r ∧ p := by
  by_cases hp : p
  · simp [hp, eq_comm]
  · simp [hp, ho]

theorem execHeUpdate_refused_iff {data : List Byte} :
    execHeUpdate data s = .refused q ↔
      q = .messageTooLong ∧ ∃ e, s.he = .live e ∧ 2 ^ 61 - 1 < e.total.toNat + data.length := by
  unfold execHeUpdate
  cases s.he with
  | finalized => simp [raise]
  | live e =>
    refine (ite_refused_iff ?_).trans (and_congr_right' ⟨fun hlong => ⟨e, rfl, hlong⟩, fun ⟨_, he, hlong⟩ => ?_⟩)
    · split <;> exact nofun
    · exact HashEngine.live.inj he ▸ hlong

theorem execHeHash_refused_iff {data : List Byte} :
    execHeHash data s = .refused q ↔ q = .messageTooLong ∧ 2 ^ 61 - 1 < data.length := ite_refused_iff nofun

theorem execBcxNext_refused_iff :
    execBcxNext s = .refused q ↔ q = .streamNotMultipleOf11 ∧ s.slen % 11 ≠ 0 := by
  refine ite_refused_iff ?_
  split
  · exact nofun
  · split <;> exact nofun

theorem execBcxAll_refused_iff :
    execBcxAll s = .refused q ↔ q = .streamNotMultipleOf11 ∧ s.slen % 11 ≠ 0 := by
  refine ite_refused_iff ?_
  split <;> exact nofun

theorem execHeFinal_ne_refused : execHeFinal s ≠ .refused q := by
  unfold execHeFinal
  split
  · exact nofun
  · split <;> exact nofun

theorem execSbLoad_ne_refused (nbits : Nat) (data : List Byte) : execSbLoad nbits data s ≠ .refused q := by
  unfold execSbLoad
  split <;> exact nofun

theorem execCsAppend_ne_refused : execCsAppend s ≠ .refused q := by
  unfold execCsAppend
  split <;> exact nofun

end

/-- Settles O33: both clauses are the refusal of a message past the limit. -/
theorem longMessageRefused : Obligations.LongMessageRefused :=
  ⟨fun _ e _ he hlong => execHeUpdate_refused_iff.mpr ⟨rfl, e, he, hlong⟩,
   fun _ _ hlong => execHeHash_refused_iff.mpr ⟨rfl, hlong⟩⟩

/-- Settles O54, command by command: four commands are refused exactly on their own condition, the other four never. -/
theorem refusalsExactly : Obligations.RefusalsExactly := by
  unfold Obligations.RefusalsExactly
  intro i s q
  cases i with
  | heInit => simp [exec, execHeInit, finish]
  | heUpdate data => simp [exec, execHeUpdate_refused_iff]
  | heFinal => simp [exec, execHeFinal_ne_refused]
  | heHash data => simp [exec, execHeHash_refused_iff]
  | sbLoad nbits data => simp [exec, execSbLoad_ne_refused]
  | csAppend => simp [exec, execCsAppend_ne_refused]
  | bcxNext => simp [exec, execBcxNext_refused_iff]
  | bcxAll => simp [exec, execBcxAll_refused_iff]

/-! ### Phases -/

/-- A live engine is in no case finalized. -/
theorem HashEngine.phase_live_ne (e : Live) : (HashEngine.live e).phase ≠ .finalized := by
  cases h : e.phase <;> simp [HashEngine.phase, h]

/-- Settles O55: the phase of each state a command can answer; the commands of the other half keep the engine. -/
theorem phaseTransitions : Obligations.PhaseTransitions := by
  unfold Obligations.PhaseTransitions
  intro i s t h
  cases i with
  | heInit => rw [execHeInit_next h]; rfl
  | heUpdate data =>
    obtain ⟨he, rfl⟩ | ⟨e, he, -, -, rfl⟩ := execHeUpdate_next h
    · simp [he]
    · simp only [he, if_neg (HashEngine.phase_live_ne e)]
      rfl
  | heFinal =>
    obtain ⟨he, rfl⟩ | ⟨e, -, -, rfl⟩ := execHeFinal_next h
    · simp [he]
    · rfl
  | heHash data => rw [(execHeHash_next h).2]; rfl
  | sbLoad nbits data => exact congrArg HashEngine.phase (exec_stream_frame rfl h)
  | csAppend => exact congrArg HashEngine.phase (exec_stream_frame rfl h)
  | bcxNext => exact congrArg HashEngine.phase (exec_stream_frame rfl h)
  | bcxAll => exact congrArg HashEngine.phase (exec_stream_frame rfl h)

end Sys2Proof.Machine
end

section
/-! PROOFS. Scope: the encoding and the decoder are inverse to each other, a cut encoding is refused and an illegal opcode
faults; the layout of the padded message and of the responses; one response a command; two sequences of commands, the one
`HE_HASH` stands for and the one that turns entropy into indices. -/

namespace Sys2Proof.Machine

/-! ### The decoder backwards -/

/-- Settles O5: the round trip is proved with the step, command by command. -/
theorem decodeOfEncode : Obligations.DecodeOfEncode := fun _ => decode_encode

/-- A command of format `N` is encoded by its opcode byte alone. -/
theorem encode_of_decodeN {i j : Instr} {rest : List Byte} (hwf : i.wellFormed = true) (hops : i.operandBytes = [])
    (h : decodeN i rest = .command j) : j.wellFormed = true ∧ encode j = i.opcode :: rest := by
  obtain ⟨rfl, rfl⟩ := decodeN_command.mp h
  exact ⟨hwf, congrArg (i.opcode :: ·) hops⟩

/-- Only the encoding of a well-formed command decodes to it: each opcode byte leads to one format, and the format gives back
its operand bytes. -/
theorem encode_of_decode {bs : List Byte} {i : Instr} (h : decode bs = .command i) :
    i.wellFormed = true ∧ encode i = bs := by
  cases bs with
  | nil => cases h
  | cons op rest =>
    rw [decode] at h
    split_ifs at h with h00 h01 h02 h03 h10 h11 h20 h21
    · exact h00 ▸ encode_of_decodeN rfl rfl h
    · obtain ⟨data, hl, rfl, rfl⟩ := decodeD_command.mp h
      exact ⟨decide_eq_true hl, h01 ▸ rfl⟩
    · exact h02 ▸ encode_of_decodeN rfl rfl h
    · obtain ⟨data, hl, rfl, rfl⟩ := decodeD_command.mp h
      exact ⟨decide_eq_true hl, h03 ▸ rfl⟩
    · obtain ⟨nbits, data, hn, hl, rfl, rfl⟩ := decodeS_command.mp h
      exact ⟨Bool.and_eq_true_iff.mpr ⟨decide_eq_true hn, decide_eq_true hl⟩, h10 ▸ rfl⟩
    · exact h11 ▸ encode_of_decodeN rfl rfl h
    · exact h20 ▸ encode_of_decodeN rfl rfl h
    · exact h21 ▸ encode_of_decodeN rfl rfl h

/-- Settles O6: the decoder backwards, opcode by opcode. -/
theorem encodeOfDecode : Obligations.EncodeOfDecode := fun _ _ => encode_of_decode

/-- Settles O7: each byte sequence is the encoding of its command, so the round trip decodes it. -/
theorem exampleWordsDecode : Obligations.ExampleWordsDecode :=
  ⟨decode_encode (i := .heInit) rfl, decode_encode (i := .heUpdate [0x61#8, 0x62#8, 0x63#8]) rfl,
    decode_encode (i := .sbLoad 12 [0xFF#8, 0xF0#8]) rfl, decode_encode (i := .csAppend) rfl,
    decode_encode (i := .bcxAll) rfl⟩

/-! ### What decodes to no command -/

/-- A number that fits its bytes is read back as it was written. -/
theorem beNat_natBytes_of_lt {w n : Nat} (h : n < 256 ^ w) : beNat (natBytes w n) = n :=
  (beNat_natBytes w n).trans (Nat.mod_eq_of_lt h)

/-- A cut behind the length field leaves the field whole and cuts the data. -/
theorem take_natBytes_append {w n k : Nat} (data : List Byte) (hk : w ≤ k) :
    (natBytes w n ++ data).take k = natBytes w n ++ data.take (k - w) := by
  rw [List.take_append, length_natBytes, List.take_of_length_le ((length_natBytes w n).trans_le hk)]

/-- A cut of a format `D` operand is incomplete, in the length field or in the data. -/
theorem decodeD_take {mk : List Byte → Instr} {data : List Byte} {k : Nat} (hl : data.length < 2 ^ 64)
    (hk : k < (natBytes 8 data.length ++ data).length) :
    decodeD mk ((natBytes 8 data.length ++ data).take k) = .incomplete := by
  rw [List.length_append, length_natBytes] at hk
  by_cases h8 : k < 8
  · exact if_pos ((List.length_take_le k _).trans_lt h8)
  · rw [take_natBytes_append data (Nat.le_of_not_lt h8), decodeD, List.take_left' (length_natBytes 8 _),
      List.drop_left' (length_natBytes 8 _), beNat_natBytes_of_lt hl,
      if_neg (by rw [List.length_append, length_natBytes]; omega), if_pos (by rw [List.length_take]; omega)]

/-- A cut of a format `S` operand with just the data its `NBITS` declares is incomplete. -/
theorem decodeS_take {nbits : Nat} {data : List Byte} {k : Nat} (hn : nbits < 2 ^ 16)
    (hl : data.length = ceilBytes nbits) (hk : k < (natBytes 2 nbits ++ data).length) :
    decodeS ((natBytes 2 nbits ++ data).take k) = .incomplete := by
  rw [List.length_append, length_natBytes] at hk
  by_cases h2 : k < 2
  · exact if_pos ((List.length_take_le k _).trans_lt h2)
  · rw [take_natBytes_append data (Nat.le_of_not_lt h2), decodeS, List.take_left' (length_natBytes 2 _),
      List.drop_left' (length_natBytes 2 _), beNat_natBytes_of_lt hn,
      if_neg (by rw [List.length_append, length_natBytes]; omega), if_pos (by rw [List.length_take]; omega)]

/-- Every shorter cut of an encoding is incomplete: nothing at all, or the opcode byte and a cut of the operand bytes. -/
theorem decode_take_encode {i : Instr} {n : Nat} (hi : i.wellFormed = true)
    (hs : ∀ nbits data, i = .sbLoad nbits data → data.length = ceilBytes nbits) (hn : n < (encode i).length) :
    decode ((encode i).take n) = .incomplete := by
  cases n with
  | zero => rfl
  | succ k =>
    have hk : k < i.operandBytes.length := Nat.lt_of_succ_lt_succ hn
    cases i with
    | heInit => cases hk
    | heFinal => cases hk
    | csAppend => cases hk
    | bcxNext => cases hk
    | bcxAll => cases hk
    | heUpdate data => exact decodeD_take (of_decide_eq_true hi) hk
    | heHash data => exact decodeD_take (of_decide_eq_true hi) hk
    | sbLoad nbits data =>
      exact decodeS_take (of_decide_eq_true (Bool.and_eq_true_iff.mp hi).1) (hs nbits data rfl) hk

/-- Settles O10: the step refuses what the decoder finds incomplete. -/
theorem incompleteSequenceRefused : Obligations.IncompleteSequenceRefused := by
  unfold Obligations.IncompleteSequenceRefused
  intro s i n more hi hs hn hin
  simp only [step, fetch, hin, decode_take_encode hi hs hn]

/-- An opcode byte that is none of the eight is illegal, whatever follows it. -/
theorem decode_illegal {op : Byte} (hop : op ∉ [0x00#8, 0x01#8, 0x02#8, 0x03#8, 0x10#8, 0x11#8, 0x20#8, 0x21#8])
    (rest : List Byte) : decode (op :: rest) = .illegal op := by
  simp only [List.mem_cons, List.not_mem_nil, or_false, not_or] at hop
  obtain ⟨h00, h01, h02, h03, h10, h11, h20, h21⟩ := hop
  rw [decode, if_neg h00, if_neg h01, if_neg h02, if_neg h03, if_neg h10, if_neg h11, if_neg h20, if_neg h21]

/-- Settles O9: the decoder finds the opcode illegal, and the step answers that with the fault alone. -/
theorem illegalOpcodeFaults : Obligations.IllegalOpcodeFaults := by
  unfold Obligations.IllegalOpcodeFaults
  intro s op rest more hop hin
  simp only [step, fetch, hin, decode_illegal hop]
  rfl

/-! ### The padded message -/

/-- Settles O19: with `z` the zeros of the model's own padding, each part is where the lengths before it put it. -/
theorem paddedMessageLayout : Obligations.PaddedMessageLayout := by
  unfold Obligations.PaddedMessageLayout
  intro m hm
  obtain ⟨z, hz⟩ : ∃ z, z = (119 - m.length % 64) % 64 := ⟨_, rfl⟩
  have hlen : (padded m).length = m.length + 1 + z + 8 := by
    simp only [padded, List.length_append, List.length_singleton, length_zeros, length_bytesBE64, hz]
  have hpad : padded m = m ++ 0x80#8 :: (zeros z ++ bytesBE64 (BitVec.ofNat 64 (8 * m.length))) := by
    simp only [padded, List.append_assoc, List.cons_append, List.nil_append, hz]
  refine ⟨z, by omega, by omega, hlen, by omega, ?_, ?_, ?_, ?_⟩
  · rw [hpad, List.take_left]
  · rw [hpad, List.getD_append_right _ _ _ _ le_rfl, Nat.sub_self]
    rfl
  · intro k hk
    rw [hpad, List.getD_append_right _ _ _ _ (by omega), show m.length + 1 + k - m.length = k + 1 by omega,
      List.getD_cons_succ, List.getD_append _ _ _ _ (by rwa [length_zeros]), zeros, List.getD_replicate _ hk]
    rfl
  · have hfield : beNat (bytesBE64 (BitVec.ofNat 64 (8 * m.length))) = 8 * m.length := by
      rw [bytesBE64, beNat_natBytes_of_lt (BitVec.isLt _), BitVec.toNat_ofNat]
      omega
    have hfront : (m ++ [0x80#8] ++ zeros z).length = m.length + 1 + z := by
      simp only [List.length_append, List.length_singleton, length_zeros]
    rw [padded, ← hz, List.drop_left' hfront, hfield]

/-! ### Responses -/

/-- A number below 2^16 written in two bytes. -/
theorem natBytes_two {n : Nat} (h : n < 2 ^ 16) :
    ∃ hi lo : Byte, hi.toNat * 256 + lo.toNat = n ∧ hi.toNat = n / 256 ∧ natBytes 2 n = [hi, lo] := by
  refine ⟨BitVec.ofNat 8 (n / 256), BitVec.ofNat 8 n, ?_, ?_, ?_⟩
  · rw [BitVec.toNat_ofNat, BitVec.toNat_ofNat]
    omega
  · rw [BitVec.toNat_ofNat]
    omega
  · simp [natBytes]

/-- Settles O58: the status bytes by evaluation, the payloads by the two bytes of a number below 2^16. -/
theorem responseByteLayout : Obligations.ResponseByteLayout := by
  unfold Obligations.ResponseByteLayout
  refine ⟨rfl, rfl, rfl, rfl, rfl, rfl, rfl, rfl, fun _ => rfl, fun n bs hn => ?_, fun v => ?_, fun vs hvs => ?_⟩
  · obtain ⟨hi, lo, hsum, -, hbytes⟩ := natBytes_two (n := n) (by omega)
    exact ⟨hi, lo, hsum, by rw [Response.bytes, Payload.bytes, hbytes]; rfl⟩
  · have hv : v.toNat < 2048 := v.isLt
    obtain ⟨hi, lo, hsum, htop, hbytes⟩ := natBytes_two (n := v.toNat) (by omega)
    exact ⟨hi, lo, hsum, by omega, by rw [Response.bytes, Payload.bytes, indexBytes, hbytes]⟩
  · refine ⟨BitVec.ofNat 8 vs.length, ?_, ?_⟩
    · rw [BitVec.toNat_ofNat]
      omega
    · rw [Response.bytes, Payload.bytes, natBytes, natBytes, Nat.pow_zero, Nat.div_one]
      rfl

/-- `End` is answered by `BCX_NEXT` alone, with the cursor at the end of the stream (R162). -/
theorem exec_endOfStream {i : Instr} {s t : State} (h : exec i s = .next t) (hout : t.out = s.out ++ [.endOfStream]) :
    i = .bcxNext ∧ s.pos = s.slen := by
  cases i with
  | heInit =>
    rw [execHeInit_next h] at hout
    simp at hout
  | heUpdate data =>
    obtain ⟨-, rfl⟩ | ⟨e, -, -, -, rfl⟩ := execHeUpdate_next h <;> simp at hout
  | heFinal =>
    obtain ⟨-, rfl⟩ | ⟨e, -, -, rfl⟩ := execHeFinal_next h <;> simp at hout
  | heHash data =>
    rw [(execHeHash_next h).2] at hout
    simp at hout
  | sbLoad nbits data =>
    obtain ⟨-, rfl⟩ | ⟨-, rfl⟩ := execSbLoad_next h <;> simp at hout
  | csAppend =>
    obtain ⟨-, rfl⟩ | ⟨-, rfl⟩ := execCsAppend_next h <;> simp at hout
  | bcxNext =>
    obtain ⟨-, ⟨hpos, -⟩ | ⟨-, -, rfl⟩⟩ := execBcxNext_next h
    · exact ⟨rfl, hpos⟩
    · simp at hout
  | bcxAll =>
    rw [(execBcxAll_next h).2.2] at hout
    simp at hout

/-- Settles O53: a command leaves what is issued alone, answers once, and answers `End` only at the end of the stream. -/
theorem oneResponsePerCommand : Obligations.OneResponsePerCommand := by
  unfold Obligations.OneResponsePerCommand
  intro i s t h
  obtain ⟨r, hr⟩ := exec_next_out h
  exact ⟨exec_next_inbox h, r, hr, fun hend => exec_endOfStream h (hend ▸ hr)⟩

/-! ### When a command completes -/

section
variable {s : State} {e : Live} {data : List Byte}

theorem exec_heInit (s : State) : exec .heInit s = .next ((s.setEngine (.live Live.init)).respond (.ok .nothing)) := rfl

theorem exec_heUpdate_of_live (he : s.he = .live e) (hl : e.total.toNat + data.length ≤ Config.maxMsgBytes)
    (hf : e.fill < Config.blockBytes) :
    exec (.heUpdate data) s = .next ((s.setEngine (.live (e.update data))).respond (.ok .nothing)) := by
  simp only [exec, execHeUpdate, he]
  rw [if_neg (Nat.not_lt.mpr hl), if_neg (Nat.not_le.mpr hf), finish]

theorem exec_heFinal_of_live (he : s.he = .live e) (hf : e.fill < Config.blockBytes) :
    exec .heFinal s = .next ((s.setEngine .finalized).respond (.ok (.digest e.digest))) := by
  simp only [exec, execHeFinal, he]
  rw [if_neg (Nat.not_le.mpr hf), finish]

theorem exec_heHash_of_le (hl : data.length ≤ Config.maxMsgBytes) :
    exec (.heHash data) s =
      .next ((s.setEngine .finalized).respond (.ok (.digest (Live.init.update data).digest))) :=
  if_neg (Nat.not_lt.mpr hl)

theorem exec_sbLoad_of_ok {nbits : Nat} (h : streamOperandsOk nbits data = true) :
    exec (.sbLoad nbits data) s =
      .next ((s.setStream (loadStream nbits data) nbits 0).respond (.ok .nothing)) := if_pos h

theorem exec_csAppend_of_entropy {L : Nat} (hs : s.slen = 8 * L) (h : isEntropyLength (8 * L) = true) :
    exec .csAppend s =
      .next ((s.setStream (appendChecksum s.sb L) (combinedBits L) 0).respond
        (.ok (.stream (combinedBits L) ((appendChecksum s.sb L).readBytes 0 (ceilBytes (combinedBits L)))))) := by
  simp only [exec, execCsAppend, hs, Nat.mul_div_cancel_left L (show 0 < 8 by decide), if_pos h, finish]

theorem exec_bcxAll_of_le (hm : s.slen % 11 = 0) (hl : s.slen ≤ 264) :
    exec .bcxAll s = .next ((s.setPos s.slen).respond (.ok (.indices (allIndices s.sb s.slen)))) :=
  (if_neg (not_not.mpr hm)).trans (if_neg (Nat.not_lt.mpr hl))

end

/-- Three commands that complete one after another. -/
theorem execSeq_three_next {i j k : Instr} {s t u v : State} (hi : exec i s = .next t) (hj : exec j t = .next u)
    (hk : exec k u = .next v) : execSeq [i, j, k] s = .next v := by
  rw [execSeq_cons_next hi, execSeq_cons_next hj, execSeq_cons_next hk, execSeq]

/-! ### The sequence `HE_HASH` stands for -/

/-- Settles O29: the sequence runs on the same engine as the one command, from the empty instance through the same update. -/
theorem heHashIsItsSequence : Obligations.HeHashIsItsSequence := by
  unfold Obligations.HeHashIsItsSequence
  intro s data hl
  have hmax : Live.init.total.toNat + data.length ≤ Config.maxMsgBytes := (Nat.zero_add data.length).symm ▸ hl
  have hfill : (Live.init.update data).fill < Config.blockBytes := (Live.inv_init.update hmax).fill_lt
  have hseq := execSeq_three_next (exec_heInit s) (exec_heUpdate_of_live rfl hmax (by decide))
    (exec_heFinal_of_live rfl hfill)
  exact ⟨_, _, _, hseq, exec_heHash_of_le hl, rfl, rfl, rfl, rfl, by simp, rfl⟩

/-! ### From entropy to indices -/

/-- The combined stream of R75: `SB` after `SB_LOAD` of the entropy `E` and `CS_APPEND`. -/
def combinedStream (E : List Byte) : Memory := appendChecksum (loadStream (8 * E.length) E) E.length

section
variable {E : List Byte} (hE : isEntropyLength (8 * E.length) = true)
include hE

/-- The operands that load entropy of an admitted length are ones `SB_LOAD` accepts. -/
theorem streamOperandsOk_entropy : streamOperandsOk (8 * E.length) E = true := by
  obtain ⟨-, hhi, -⟩ := entropyLength_bounds hE
  exact (streamOperandsOk_iff _ _).mpr ⟨by omega, by omega⟩

/-- The entropy loaded is the entropy read back. -/
theorem readBytes_loadStream_entropy : (loadStream (8 * E.length) E).readBytes 0 E.length = E := by
  obtain ⟨-, hhi, -⟩ := entropyLength_bounds hE
  have hbytes : Config.sbBytes = 33 := rfl
  rw [loadStream, if_pos (Nat.mul_mod_right 8 _)]
  exact Memory.readBytes_writeBytes (Memory.wf_nil Config.sbBytes) (by omega)

/-- The combined stream starts with the entropy (R75). -/
theorem streamBit_combined_entropy {k : Nat} (hk : k < 8 * E.length) :
    streamBit (combinedStream E) k = bitOf E k := by
  have hok := streamOperandsOk_entropy hE
  rw [combinedStream, streamBit_appendChecksum k (loadStream_wf hok), if_neg (by omega), streamBit_loadStream k hok,
    decide_eq_true hk, Bool.true_and]

/-- The combined stream goes on with the first bits of the digest of the entropy (R75). -/
theorem streamBit_combined_checksum {j : Nat} (hj : j < checksumBits E.length) :
    streamBit (combinedStream E) (8 * E.length + j) = bitOf (sha256 E) j := by
  obtain ⟨-, hhi, -⟩ := entropyLength_bounds hE
  have h8 : j < 8 := by rw [checksumBits] at hj; omega
  have hbyte : (8 * E.length + j) / 8 = E.length := by omega
  have hbit : (8 * E.length + j) % 8 = j := by omega
  rw [combinedStream, streamBit_appendChecksum _ (loadStream_wf (streamOperandsOk_entropy hE)), if_pos hbyte, hbit,
    decide_eq_true hj, Bool.true_and, readBytes_loadStream_entropy hE]

end

/-- The combined stream is a whole number of indices and fits the Stream Buffer (R75). -/
theorem combinedBits_bounds {L : Nat} (h : isEntropyLength (8 * L) = true) :
    combinedBits L % 11 = 0 ∧ combinedBits L ≤ 264 := by
  obtain ⟨-, hhi, hmod⟩ := entropyLength_bounds h
  rw [combinedBits, checksumBits]
  omega

/-- Settles O47: the indices spell the stream `CS_APPEND` leaves, the entropy and then its checksum bits. -/
theorem entropyToIndices : Obligations.EntropyToIndices := by
  unfold Obligations.EntropyToIndices
  intro s E hlen
  have hE : isEntropyLength (8 * E.length) = true :=
    (isEntropyLength_iff _).mpr (List.mem_map_of_mem (f := (8 * ·)) hlen)
  obtain ⟨hmod, hle⟩ := combinedBits_bounds hE
  have hspell (k : Nat) (hk : k < combinedBits E.length) :=
    indexBit_allIndices (combinedStream E) (combinedBits E.length) k (by omega)
  have hbits : combinedBits E.length = 8 * E.length + E.length / 4 := rfl
  have hseq := execSeq_three_next (exec_sbLoad_of_ok (s := s) (streamOperandsOk_entropy hE))
    (exec_csAppend_of_entropy rfl hE) (exec_bcxAll_of_le hmod hle)
  refine ⟨_, allIndices (combinedStream E) (combinedBits E.length), hseq, List.getLast?_concat, ?_, fun k hk => ?_,
    fun j hj => ?_, rfl⟩
  · rw [length_allIndices]
    omega
  · rw [hspell k (by omega), streamBit_combined_entropy hE hk]
  · rw [hspell _ (by omega), streamBit_combined_checksum hE hj]

end Sys2Proof.Machine
end

section
/-! PROOFS. Scope: the SHA-256 functions. The bits of the word functions, the words of the message schedule, the rounds of
the compression function, and the roots of primes its constants are taken from. -/

namespace Sys2Proof.Machine

/-! ### The bits of the word functions -/

/-- The model's rotation is the library's, by a distance below the width (R102). -/
theorem rotr_eq_rotateRight (x : Word) {n : Nat} (hn : n < 32) : rotr x n = x.rotateRight n := by
  rw [BitVec.rotateRight_def, Nat.mod_eq_of_lt hn, rotr]

/-- A rotation reads bit `i` from `n` places up, around the end of the word (R102). -/
theorem getLsbD_rotr (x : Word) {n i : Nat} (hn : n < 32) (hi : i < 32) :
    (rotr x n).getLsbD i = x.getLsbD ((i + n) % 32) := by
  rw [rotr_eq_rotateRight x hn, BitVec.getLsbD_rotateRight, Nat.mod_eq_of_lt hn]
  by_cases h : i < 32 - n
  · rw [decide_eq_true h, cond_true, Nat.mod_eq_of_lt (by omega), Nat.add_comm]
  · rw [decide_eq_false h, cond_false, decide_eq_true hi, Bool.true_and, show (i + n) % 32 = i - (32 - n) by omega]

/-- A shift reads bit `i` from `n` places up, past the end of the word 0 (R103). -/
theorem getLsbD_shr (x : Word) (n i : Nat) : (shr x n).getLsbD i = x.getLsbD (i + n) := by
  rw [shr, BitVec.getLsbD_ushiftRight, Nat.add_comm]

/-- A shift divides by a power of two (R103). -/
theorem toNat_shr (x : Word) (n : Nat) : (shr x n).toNat = x.toNat / 2 ^ n := by
  rw [shr, BitVec.toNat_ushiftRight, Nat.shiftRight_eq_div_pow]

/-- Settles O13: the bit rules of the rotation and of the shift; the bits shifted in lie past the end of `x`. -/
theorem rotateAndShiftBits : Obligations.RotateAndShiftBits := by
  unfold Obligations.RotateAndShiftBits
  intro x n i _ hn hi
  refine ⟨getLsbD_rotr x hn hi, toNat_shr x n, fun htop => ?_⟩
  rw [getLsbD_shr]
  exact BitVec.getLsbD_of_ge x (i + n) (by omega)

/-- The exclusive or of the three pairwise products of bits is their majority. -/
theorem xor_and_eq_majority : ∀ a b c : Bool,
    ((a && b ^^ a && c) ^^ b && c) = decide (2 ≤ a.toNat + b.toNat + c.toNat) := by
  decide

/-- Settles O14: `Ch` by the two values of the bit of `x`, `Maj` as the majority of three bits. -/
theorem chooseAndMajorityBits : Obligations.ChooseAndMajorityBits := by
  unfold Obligations.ChooseAndMajorityBits
  intro x y z i hi
  constructor
  · rw [ch, BitVec.getLsbD_xor, BitVec.getLsbD_and, BitVec.getLsbD_and, BitVec.getLsbD_not, decide_eq_true hi]
    cases x.getLsbD i with
    | true => simp
    | false => simp
  · rw [maj, BitVec.getLsbD_xor, BitVec.getLsbD_xor, BitVec.getLsbD_and, BitVec.getLsbD_and, BitVec.getLsbD_and,
      xor_and_eq_majority]

/-- The exclusive or of three rotations, bit by bit: the form of `BSIG0` and `BSIG1` (R106, R107). -/
theorem getLsbD_xor_rotr_rotr_rotr (x : Word) {l m n i : Nat} (hl : l < 32) (hm : m < 32) (hn : n < 32) (hi : i < 32) :
    (rotr x l ^^^ rotr x m ^^^ rotr x n).getLsbD i =
      ((x.getLsbD ((i + l) % 32) ^^ x.getLsbD ((i + m) % 32)) ^^ x.getLsbD ((i + n) % 32)) := by
  rw [BitVec.getLsbD_xor, BitVec.getLsbD_xor, getLsbD_rotr x hl hi, getLsbD_rotr x hm hi, getLsbD_rotr x hn hi]

/-- The exclusive or of two rotations and a shift, bit by bit: the form of `SSIG0` and `SSIG1` (R108, R109). -/
theorem getLsbD_xor_rotr_rotr_shr (x : Word) {l m i : Nat} (n : Nat) (hl : l < 32) (hm : m < 32) (hi : i < 32) :
    (rotr x l ^^^ rotr x m ^^^ shr x n).getLsbD i =
      ((x.getLsbD ((i + l) % 32) ^^ x.getLsbD ((i + m) % 32)) ^^ x.getLsbD (i + n)) := by
  rw [BitVec.getLsbD_xor, BitVec.getLsbD_xor, getLsbD_rotr x hl hi, getLsbD_rotr x hm hi, getLsbD_shr]

/-- Settles O15: each sigma function is one of the two forms, at its own distances. -/
theorem sigmaFunctionBits : Obligations.SigmaFunctionBits := by
  unfold Obligations.SigmaFunctionBits
  intro x i hi
  exact ⟨getLsbD_xor_rotr_rotr_rotr x (by decide) (by decide) (by decide) hi,
    getLsbD_xor_rotr_rotr_rotr x (by decide) (by decide) (by decide) hi,
    getLsbD_xor_rotr_rotr_shr x 3 (by decide) (by decide) hi,
    getLsbD_xor_rotr_rotr_shr x 10 (by decide) (by decide) hi⟩

/-! ### The message schedule -/

/-- Every word from `W[16]` on is the next schedule word of the words before it (R112). -/
def FollowsRecurrence (W : List Word) : Prop :=
  ∀ i, 16 ≤ i → i < W.length → W.getD i 0 = nextScheduleWord (W.take i)

theorem length_extendSchedule (n : Nat) (W : List Word) : (extendSchedule n W).length = W.length + n := by
  induction n generalizing W with
  | zero => rfl
  | succ n ih => rw [extendSchedule, ih, List.length_append, List.length_singleton, Nat.add_assoc, Nat.add_comm 1 n]

/-- Extending a schedule leaves the words it has. -/
theorem getD_extendSchedule (n : Nat) {W : List Word} {i : Nat} (hi : i < W.length) :
    (extendSchedule n W).getD i 0 = W.getD i 0 := by
  induction n generalizing W with
  | zero => rfl
  | succ n ih =>
    have hlt : i < (W ++ [nextScheduleWord W]).length := by
      rw [List.length_append]
      exact Nat.lt_add_right _ hi
    rw [extendSchedule, ih hlt, List.getD_append _ _ _ _ hi]

/-- One more word by the recurrence: the earlier words are as before, and the new one is made from all of them. -/
theorem FollowsRecurrence.append {W : List Word} (h : FollowsRecurrence W) :
    FollowsRecurrence (W ++ [nextScheduleWord W]) := by
  intro i h16 hi
  rw [List.length_append, List.length_singleton] at hi
  obtain hlt | rfl := Nat.lt_succ_iff_lt_or_eq.mp hi
  · rw [List.getD_append _ _ _ _ hlt, List.take_append_of_le_length hlt.le, h i h16 hlt]
  · rw [List.getD_append_right _ _ _ _ le_rfl, Nat.sub_self, List.take_left]
    rfl

/-- Extending keeps the recurrence: it appends one word at a time. -/
theorem FollowsRecurrence.extend (n : Nat) {W : List Word} (h : FollowsRecurrence W) :
    FollowsRecurrence (extendSchedule n W) := by
  induction n generalizing W with
  | zero => exact h
  | succ n ih => exact ih h.append

/-- What the recurrence reads of the first `i` words it reads at the same places of the whole schedule (R112). -/
theorem nextScheduleWord_take {W : List Word} {i : Nat} (h16 : 16 ≤ i) (hi : i < W.length) :
    nextScheduleWord (W.take i) =
      ssig1 (W.getD (i - 2) 0) + W.getD (i - 7) 0 + ssig0 (W.getD (i - 15) 0) + W.getD (i - 16) 0 := by
  have hread (j : Nat) (hj : j < i) : (W.take i).getD j 0 = W.getD j 0 := by
    rw [List.getD_eq_getElem?_getD, List.getElem?_take_of_lt hj, List.getD_eq_getElem?_getD]
  rw [nextScheduleWord, List.length_take_of_le hi.le, hread (i - 2) (by omega), hread (i - 7) (by omega),
    hread (i - 15) (by omega), hread (i - 16) (by omega)]

section
variable (B : List Byte)

/-- The 16 words a schedule starts from (R112). -/
theorem length_map_blockWord : ((List.range 16).map (blockWord B)).length = 16 := by
  rw [List.length_map, List.length_range]

theorem length_schedule : (schedule B).length = 64 := by
  rw [schedule, length_extendSchedule, length_map_blockWord]

theorem schedule_followsRecurrence : FollowsRecurrence (schedule B) :=
  FollowsRecurrence.extend 48 fun _ h16 hi => absurd (length_map_blockWord B ▸ hi) (Nat.not_lt.mpr h16)

theorem getD_schedule_blockWord {i : Nat} (hi : i < 16) : (schedule B).getD i 0 = blockWord B i := by
  have hlen : i < ((List.range 16).map (blockWord B)).length := (length_map_blockWord B).symm ▸ hi
  rw [schedule, getD_extendSchedule 48 hlen, List.getD_eq_getElem _ _ hlen, List.getElem_map, List.getElem_range]

end

/-- Settles O16: the schedule extends the 16 words of the block by 48, each following the recurrence. -/
theorem scheduleWords : Obligations.ScheduleWords := by
  unfold Obligations.ScheduleWords
  intro B
  refine ⟨length_schedule B, fun i hi => getD_schedule_blockWord B hi, fun i h16 h64 => ?_⟩
  have hi : i < (schedule B).length := (length_schedule B).symm ▸ h64
  rw [schedule_followsRecurrence B i h16 hi, nextScheduleWord_take h16 hi]

/-! ### The compression function -/

/-- Round `n` runs after the rounds before it (R115). -/
theorem rounds_succ (n : Nat) (v : WorkVars) (W : List Word) : rounds (n + 1) v W = round n (rounds n v W) W := by
  rw [rounds, List.range_succ, List.foldl_append, List.foldl_cons, List.foldl_nil, ← rounds]

/-- Settles O17: the feed-forward word by word after the 64 rounds, and the round rules from their definitions. -/
theorem roundsThenFeedForward : Obligations.RoundsThenFeedForward := by
  unfold Obligations.RoundsThenFeedForward
  refine ⟨fun H B => ⟨_, rfl, ?_⟩, fun _ => ⟨rfl, rfl, rfl, rfl, rfl, rfl, rfl, rfl⟩, fun _ _ => rfl, rounds_succ,
    fun _ _ _ => ⟨_, _, rfl, rfl, rfl⟩, rfl⟩
  rw [compress]
  exact ⟨rfl, rfl, rfl, rfl, rfl, rfl, rfl, rfl⟩

/-! ### The constants -/

/-- The words of `H_INIT` are the low 32 bits of the square roots of primes, scaled by 2^32 (R110). -/
theorem hInit_eq_nthRoot : ∀ i, i < 8 → Nat.nthRoot 2 (firstPrimes.getD i 0 * 2 ^ 64) % 2 ^ 32 =
    ([hInit.h0, hInit.h1, hInit.h2, hInit.h3, hInit.h4, hInit.h5, hInit.h6, hInit.h7].getD i 0).toNat := by
  decide +kernel

/-- The words of `K` are the low 32 bits of the cube roots of primes, scaled by 2^32 (R111). -/
theorem kTable_eq_nthRoot : ∀ t, t < 64 →
    Nat.nthRoot 3 (firstPrimes.getD t 0 * 2 ^ 96) % 2 ^ 32 = (kTable.getD t 0).toNat := by
  decide +kernel

/-- Settles O59: the library's integer root is the floor of the root, and its low 32 bits are the words of the tables. -/
theorem constantsAreRootsOfPrimes : Obligations.ConstantsAreRootsOfPrimes := by
  unfold Obligations.ConstantsAreRootsOfPrimes
  constructor
  · intro i hi
    exact ⟨_, Nat.pow_nthRoot_le (.inl two_ne_zero), Nat.lt_pow_nthRoot_add_one two_ne_zero _, hInit_eq_nthRoot i hi⟩
  · intro t ht
    exact ⟨_, Nat.pow_nthRoot_le (.inl three_ne_zero), Nat.lt_pow_nthRoot_add_one three_ne_zero _, kTable_eq_nthRoot t ht⟩

end Sys2Proof.Machine
end

section
/-! PROOFS. Scope: the Hash Engine commands. The bytes of the digest; the blocks `PAD` compresses; what `HE_UPDATE` does to the
instance; the message an instance holds, and that however it came there `HE_FINAL` returns its SHA-256. -/

namespace Sys2Proof.Machine

/-! ### The bytes of the digest -/

/-- A byte cut out of a word is the word divided down to it (R15). -/
theorem extractLsb'_eq_ofNat (w : Word) (k : Nat) : BitVec.extractLsb' (8 * k) 8 w = BitVec.ofNat 8 (w.toNat / 256 ^ k) := by
  rw [BitVec.extractLsb', Nat.shiftRight_eq_div_pow, Nat.pow_mul]

/-- The four bytes of a word are its number written in four bytes (R15). -/
theorem bytesBE32_eq_natBytes (w : Word) : bytesBE32 w = natBytes 4 w.toNat := by
  simp only [natBytes, ← extractLsb'_eq_ofNat]
  rfl

theorem length_bytesBE32 (w : Word) : (bytesBE32 w).length = 4 := rfl

/-- Byte `j` of a number written in `k` bytes. -/
theorem getD_natBytes {k j : Nat} (n : Nat) (hj : j < k) :
    (natBytes k n).getD j 0 = BitVec.ofNat 8 (n / 256 ^ (k - 1 - j)) := by
  induction k generalizing j with
  | zero => omega
  | succ k ih =>
    cases j with
    | zero => rfl
    | succ j => rw [natBytes, List.getD_cons_succ, ih (by omega), show k + 1 - 1 - (j + 1) = k - 1 - j by omega]

/-- Word `i` of a sequence of words stands in bytes `4i` to `4i + 3`. -/
theorem take_drop_flatMap_bytesBE32 {ws : List Word} {i : Nat} {w : Word} (h : ws[i]? = some w) :
    ((ws.flatMap bytesBE32).drop (4 * i)).take 4 = bytesBE32 w := by
  induction ws generalizing i with
  | nil => simp at h
  | cons v ws ih =>
    cases i with
    | zero =>
      obtain rfl : v = w := Option.some.inj h
      exact List.take_left' (length_bytesBE32 v)
    | succ i =>
      rw [List.flatMap_cons, Nat.mul_succ, Nat.add_comm, ← List.drop_drop, List.drop_left' (length_bytesBE32 v)]
      exact ih h

theorem digestOf_eq_flatMap (H : HashWords) :
    digestOf H = [H.h0, H.h1, H.h2, H.h3, H.h4, H.h5, H.h6, H.h7].flatMap bytesBE32 := rfl

/-- Settles O18: word `i` stands in its four bytes, and those are its number written in four bytes. -/
theorem digestIsBigEndian : Obligations.DigestIsBigEndian := by
  unfold Obligations.DigestIsBigEndian
  refine fun H => ⟨length_digestOf H, fun i w hw => ?_⟩
  have hbytes : ((digestOf H).drop (4 * i)).take 4 = natBytes 4 w.toNat := by
    rw [digestOf_eq_flatMap, take_drop_flatMap_bytesBE32 hw, bytesBE32_eq_natBytes]
  refine ⟨by rw [hbytes, beNat_natBytes_of_lt w.isLt], fun j hj => ?_⟩
  have hget : (digestOf H).getD (4 * i + j) 0 = (natBytes 4 w.toNat).getD j 0 := by
    simp only [← hbytes, List.getD_eq_getElem?_getD, List.getElem?_take_of_lt hj, List.getElem?_drop]
  rw [hget, getD_natBytes _ hj, BitVec.toNat_ofNat]

/-! ### The blocks of `PAD` -/

/-- A block in front of a byte sequence is compressed first. -/
theorem compressBlocks_append_block {B : List Byte} (n : Nat) (H : HashWords) (P : List Byte) (hB : B.length = 64) :
    compressBlocks (n + 1) H (B ++ P) = compressBlocks n (compress H B) P := by
  rw [compressBlocks, List.take_left' hB, List.drop_left' hB]

/-- One block alone is compressed. -/
theorem compressBlocks_block {B : List Byte} (H : HashWords) (hB : B.length = 64) :
    compressBlocks 1 H B = compress H B := by
  rw [compressBlocks, List.take_of_length_le hB.le, compressBlocks]

theorem zeros_add (m n : Nat) : zeros (m + n) = zeros m ++ zeros n := List.replicate_add m n 0

/-- Settles O20: the bytes `PAD` compresses are one block, or two that meet where the first 64 bytes end. -/
theorem padRunsOneOrTwoBlocks : Obligations.PadRunsOneOrTwoBlocks := by
  unfold Obligations.PadRunsOneOrTwoBlocks
  intro e bitlen hw hf
  rw [Live.pad_h e bitlen hw hf]
  split
  case isTrue hle =>
    rw [show (e.fill + 72) / 64 = 1 by omega, show (119 - e.fill) % 64 = 55 - e.fill by omega]
    refine compressBlocks_block _ ?_
    simp only [List.length_append, Live.length_pending, List.length_singleton, length_zeros, length_bytesBE64]
    omega
  case isFalse hgt =>
    have hfirst : (e.pending ++ [0x80#8] ++ zeros (63 - e.fill)).length = 64 := by
      simp only [List.length_append, Live.length_pending, List.length_singleton, length_zeros]
      omega
    have hlast : (zeros 56 ++ bytesBE64 bitlen).length = 64 := by
      rw [List.length_append, length_zeros, length_bytesBE64]
    rw [show (e.fill + 72) / 64 = 1 + 1 by omega, show (119 - e.fill) % 64 = 63 - e.fill + 56 by omega, zeros_add,
      ← List.append_assoc, List.append_assoc (_ ++ zeros _), compressBlocks_append_block 1 _ _ hfirst,
      compressBlocks_block _ hlast]

/-! ### What `HE_UPDATE` does to the instance -/

theorem Live.length_pending_append (e : Live) (data : List Byte) : (e.pending ++ data).length = e.fill + data.length := by
  rw [List.length_append, Live.length_pending]

section
variable {e : Live} {data : List Byte} (hw : e.buf.wf Config.blockBytes = true) (hf : e.fill < Config.blockBytes)
include hw hf

/-- `H` after `HE_UPDATE` (R132). -/
theorem Live.update_h :
    (e.update data).h = compressBlocks ((e.fill + data.length) / 64) e.h (e.pending ++ data) := by
  rw [← Live.length_pending_append]
  exact (Live.absorbs_appendBytes e data hw hf).h_eq

/-- `FILL` after `HE_UPDATE` (R132). -/
theorem Live.update_fill : (e.update data).fill = (e.fill + data.length) % 64 := by
  rw [← Live.length_pending_append]
  exact (Live.absorbs_appendBytes e data hw hf).fill_eq

/-- The bytes in `BUF` after `HE_UPDATE` (R132). -/
theorem Live.update_pending :
    (e.update data).pending = (e.pending ++ data).drop (64 * ((e.fill + data.length) / 64)) := by
  rw [← Live.length_pending_append]
  exact (Live.absorbs_appendBytes e data hw hf).pending_eq

theorem Live.update_buf_wf : (e.update data).buf.wf Config.blockBytes = true :=
  (Live.absorbs_appendBytes e data hw hf).buf_wf

/-- Within the message limit `TOTAL` counts the data without wrapping (R24, R132). -/
theorem Live.update_total (hl : e.total.toNat + data.length ≤ Config.maxMsgBytes) :
    (e.update data).total.toNat = e.total.toNat + data.length := by
  have hmax : Config.maxMsgBytes < 2 ^ 64 := by decide
  have htotal : (e.update data).total = e.total + BitVec.ofNat 64 data.length :=
    congrArg (· + _) (Live.absorbs_appendBytes e data hw hf).total_eq
  rw [htotal, BitVec.toNat_add, BitVec.toNat_ofNat]
  omega

end

/-- Settles O23: the command completes, and each item is that of the update. -/
theorem heUpdateAbsorbsData : Obligations.HeUpdateAbsorbsData := by
  unfold Obligations.HeUpdateAbsorbsData
  intro s e data he hinv hl
  exact ⟨_, e.update data, exec_heUpdate_of_live he hl hinv.fill_lt, rfl, Live.update_h hinv.buf_wf hinv.fill_lt,
    Live.update_fill hinv.buf_wf hinv.fill_lt, Live.update_pending hinv.buf_wf hinv.fill_lt,
    Live.update_total hinv.buf_wf hinv.fill_lt hl, rfl, rfl, rfl, rfl, rfl, rfl⟩

/-- The bytes of `BUF` below `FILL`. -/
theorem Live.read_buf_eq_pending {e : Live} {a : Nat} (ha : a < e.fill) : e.buf.read a = e.pending.getD a 0 := by
  rw [Live.pending, Memory.getD_readBytes, if_pos ha, Nat.zero_add]

/-- Settles O24: no whole block is there to compress, so `BUF` holds the bytes it held and the data behind them. -/
theorem heUpdateOnlyBuffers : Obligations.HeUpdateOnlyBuffers := by
  unfold Obligations.HeUpdateOnlyBuffers
  intro s t e data he hinv hlen hx
  have hdiv : (e.fill + data.length) / 64 = 0 := by omega
  have hh : (e.update data).h = e.h := by rw [Live.update_h hinv.buf_wf hinv.fill_lt, hdiv, compressBlocks]
  have hfill : (e.update data).fill = e.fill + data.length := by
    rw [Live.update_fill hinv.buf_wf hinv.fill_lt, Nat.mod_eq_of_lt (by omega)]
  have hpending : (e.update data).pending = e.pending ++ data := by
    rw [Live.update_pending hinv.buf_wf hinv.fill_lt, hdiv, Nat.mul_zero, List.drop_zero]
  obtain ⟨hfin, -⟩ | ⟨e', he', -, -, rfl⟩ := execHeUpdate_next hx
  · rw [he] at hfin
    cases hfin
  · obtain rfl : e = e' := HashEngine.live.inj (he.symm.trans he')
    refine ⟨e.update data, rfl, hh, fun a ha => ?_, fun i hi => ?_⟩
    · rw [Live.read_buf_eq_pending (by omega), hpending, List.getD_append _ _ _ _ (by rwa [Live.length_pending]),
        Live.read_buf_eq_pending ha]
    · rw [Live.read_buf_eq_pending (by omega), hpending,
        List.getD_append_right _ _ _ _ (by rw [Live.length_pending]; omega), Live.length_pending, Nat.add_sub_cancel_left]

/-- Two updates are one with the concatenated data: counting and the phase do not touch what the bytes do (R132, R139). -/
theorem Live.update_update (e : Live) (d d' : List Byte) : (e.update d).update d' = e.update (d ++ d') := by
  simp only [Live.update, Live.appendBytes_count_accumulate, ← Live.appendBytes_append]
  apply Live.ext <;> simp [BitVec.add_assoc, BitVec.ofNat_add]

/-- Settles O25: both sides complete, and the instances are equal by the law of two updates. -/
theorem heUpdateSplits : Obligations.HeUpdateSplits := by
  unfold Obligations.HeUpdateSplits
  intro s e d d' he hinv hl
  have hmax : e.total.toNat + (d ++ d').length ≤ Config.maxMsgBytes := hl
  rw [List.length_append, ← Nat.add_assoc] at hl
  have hd : e.total.toNat + d.length ≤ Config.maxMsgBytes := (Nat.le_add_right _ _).trans hl
  have hinv' : (e.update d).Inv := hinv.update hd
  have hd' : (e.update d).total.toNat + d'.length ≤ Config.maxMsgBytes := by
    rwa [Live.update_total hinv.buf_wf hinv.fill_lt hd]
  refine ⟨_, _, (execSeq_cons_next (exec_heUpdate_of_live he hd hinv.fill_lt)).trans
    (execSeq_cons_next (exec_heUpdate_of_live rfl hd' hinv'.fill_lt)), exec_heUpdate_of_live he hmax hinv.fill_lt,
    congrArg HashEngine.live (e.update_update d d'), rfl, rfl, rfl⟩

/-! ### The message an instance holds -/

/-- The bit length `HE_FINAL` pads with is that of the message counted in `TOTAL` (R134). -/
theorem eight_mul_total {total : BitVec 64} {n : Nat} (h : total.toNat = n) : 8#64 * total = BitVec.ofNat 64 (8 * n) := by
  rw [← h, BitVec.ofNat_mul, BitVec.ofNat_toNat, BitVec.setWidth_eq]

/-- The blocks of a padded message: those of the message, and those of what is left of it with the padding (R72). -/
theorem length_padded_div (m : List Byte) : (padded m).length / 64 = m.length / 64 + (m.length % 64 + 72) / 64 := by
  simp only [padded, List.length_append, List.length_singleton, length_zeros, length_bytesBE64]
  omega

/-- An empty instance holds the empty message (R131). -/
theorem Live.holds_init : Live.init.Holds [] := ⟨rfl, rfl, rfl, rfl, rfl⟩

section
variable {e : Live} {m : List Byte} (he : e.Holds m)
include he

theorem Live.Holds.fill_lt : e.fill < Config.blockBytes := he.fill_eq ▸ Nat.mod_lt _ (by decide)

/-- `HE_UPDATE` makes the data the end of the message held (R132). -/
theorem Live.Holds.update {data : List Byte} (hl : m.length + data.length ≤ Config.maxMsgBytes) :
    (e.update data).Holds (m ++ data) := by
  have hblocks : 64 * (m.length / 64) ≤ m.length := Nat.mul_div_le _ _
  have hrest : e.pending ++ data = (m ++ data).drop (64 * (m.length / 64)) := by
    rw [he.pending_eq, List.drop_append_of_le_length hblocks]
  have hcount : (m ++ data).length / 64 = m.length / 64 + (e.fill + data.length) / 64 := by
    rw [List.length_append, he.fill_eq]
    omega
  refine ⟨?_, Live.update_buf_wf he.buf_wf he.fill_lt, ?_, ?_, ?_⟩
  · rw [Live.update_h he.buf_wf he.fill_lt, he.h_eq, hrest, hcount, compressBlocks_add,
      compressBlocks_append_right _ _ _ _ hblocks]
  · rw [Live.update_fill he.buf_wf he.fill_lt, he.fill_eq, List.length_append, Nat.mod_add_mod]
  · rw [Live.update_pending he.buf_wf he.fill_lt, hrest, hcount, List.drop_drop, Nat.mul_add]
  · rw [Live.update_total he.buf_wf he.fill_lt (he.total_eq ▸ hl), he.total_eq, List.length_append]

/-- The digest of an instance is SHA-256 of the message it holds: `PAD` goes on from the whole blocks in `H` with the rest of
the padded message (R72, R134 to R137). -/
theorem Live.Holds.digest_eq : e.digest = sha256 m := by
  have hblocks : 64 * (m.length / 64) ≤ m.length := Nat.mul_div_le _ _
  have hz : (119 - m.length % 64) % 64 = (119 - e.fill) % 64 := by rw [he.fill_eq]
  rw [Live.digest, sha256, length_padded_div, compressBlocks_add, Live.pad_h e _ he.buf_wf he.fill_lt, eight_mul_total he.total_eq,
    padded, he.h_eq, he.pending_eq, he.fill_eq]
  simp only [List.append_assoc]
  rw [compressBlocks_append_right _ _ _ _ hblocks, List.drop_append_of_le_length hblocks]

end

/-! ### `HE_INIT`, `HE_FINAL` and `HE_HASH` -/

/-- Settles O21: both times the engine left is the empty instance. -/
theorem heInitCreatesEmptyInstance : Obligations.HeInitCreatesEmptyInstance := fun s =>
  ⟨_, Live.init, exec_heInit s, rfl, rfl, rfl, rfl, rfl, rfl, rfl, rfl, rfl, rfl, _, exec_heInit _, rfl, rfl, rfl, rfl⟩

/-- Settles O26: the digest of any instance is 32 bytes. -/
theorem heFinalCompletes : Obligations.HeFinalCompletes := fun _ e he hf =>
  ⟨_, e.digest, exec_heFinal_of_live he hf, rfl, length_digestOf _, rfl, rfl, rfl, rfl, rfl⟩

/-- `HE_FINAL` on an instance that holds a message returns its SHA-256 (R134, R137). -/
theorem exec_heFinal_of_holds {s : State} {e : Live} {m : List Byte} (he : s.he = .live e) (hm : e.Holds m) :
    exec .heFinal s = .next ((s.setEngine .finalized).respond (.ok (.digest (sha256 m)))) := by
  rw [exec_heFinal_of_live he hm.fill_lt, hm.digest_eq]

/-- Settles O27: the completion of `HE_FINAL` with the digest of the message held. -/
theorem heFinalReturnsDigest : Obligations.HeFinalReturnsDigest := fun _ _ _ he hm _ =>
  ⟨_, exec_heFinal_of_holds he hm, rfl, rfl, rfl, rfl, rfl, rfl⟩

/-- Settles O28: the empty instance the command starts from holds the data once it has absorbed them. -/
theorem heHashReturnsDigest : Obligations.HeHashReturnsDigest := by
  unfold Obligations.HeHashReturnsDigest
  intro s data hl
  have hholds : (Live.init.update data).Holds data := Live.holds_init.update ((Nat.zero_add _).trans_le hl)
  exact ⟨_, exec_heHash_of_le hl, rfl, by rw [hholds.digest_eq]; rfl, rfl, rfl, rfl, rfl⟩

/-! ### A message in pieces -/

/-- Updates with any pieces complete, and the instance then holds the message it held followed by the pieces (R132, R139). -/
theorem execSeq_heUpdate_of_holds {s : State} {e : Live} {m : List Byte} (ds : List (List Byte)) (he : s.he = .live e)
    (hm : e.Holds m) (hl : m.length + ds.flatten.length ≤ Config.maxMsgBytes) :
    ∃ e' : Live, e'.Holds (m ++ ds.flatten) ∧ execSeq (ds.map .heUpdate) s =
      .next { s with he := .live e', out := s.out ++ List.replicate ds.length (.ok .nothing) } := by
  induction ds generalizing s e m with
  | nil => exact ⟨e, by simpa using hm, by simp [execSeq, ← he]⟩
  | cons d ds ih =>
    rw [List.flatten_cons, List.length_append, ← Nat.add_assoc] at hl
    have hd : m.length + d.length ≤ Config.maxMsgBytes := (Nat.le_add_right _ _).trans hl
    have hx := exec_heUpdate_of_live he (hm.total_eq.symm ▸ hd) hm.fill_lt
    obtain ⟨e', hm', hrun⟩ := ih (s := (s.setEngine (.live (e.update d))).respond (.ok .nothing)) rfl (hm.update hd)
      (by rwa [List.length_append])
    refine ⟨e', by rwa [List.flatten_cons, ← List.append_assoc], ?_⟩
    rw [List.map_cons, execSeq_cons_next hx, hrun]
    simp [State.respond, State.setEngine, List.replicate_succ]

/-- Settles O30: the empty instance holds nothing, the updates make it hold the pieces, and `HE_FINAL` returns their digest. -/
theorem streamedDigest : Obligations.StreamedDigest := by
  unfold Obligations.StreamedDigest
  intro s ds hl
  obtain ⟨e, hm, hrun⟩ := execSeq_heUpdate_of_holds (s := (s.setEngine (.live Live.init)).respond (.ok .nothing)) ds rfl
    Live.holds_init ((Nat.zero_add _).trans_le hl)
  refine ⟨_, (execSeq_cons_next (exec_heInit s)).trans
    ((execSeq_append_next hrun).trans (execSeq_cons_next (exec_heFinal_of_holds rfl hm))), rfl, ?_, rfl, rfl, rfl, rfl⟩
  simp [List.replicate_succ]

/-- Settles O31: by O30 and O28 both digests are SHA-256 of the concatenation. -/
theorem incrementalEqualsOneShot : Obligations.IncrementalEqualsOneShot := by
  unfold Obligations.IncrementalEqualsOneShot
  intro s s' ds hl
  obtain ⟨t, ht, -, htout, -⟩ := streamedDigest s ds hl
  obtain ⟨u, hu, -, huout, -⟩ := heHashReturnsDigest s' ds.flatten hl
  exact ⟨t, u, sha256 ds.flatten, ht, hu, htout ▸ List.getLast?_concat, huout ▸ List.getLast?_concat⟩

end Sys2Proof.Machine
end

section
/-! PROOFS. Scope: the Stream Buffer commands. What `SB_LOAD` stores, and the checksum `CS_APPEND` adds to it. -/

namespace Sys2Proof.Machine

/-- Settles O34: the command completes with `loadStream` in `SB`, whose bits are those of the data up to `nbits`, then zeros. -/
theorem sbLoadStoresStream : Obligations.SbLoadStoresStream := by
  unfold Obligations.SbLoadStoresStream
  intro s nbits data hn hlen
  have hok : streamOperandsOk nbits data = true := (streamOperandsOk_iff nbits data).mpr ⟨hn, hlen⟩
  refine ⟨_, exec_sbLoad_of_ok hok, rfl, rfl, fun k hk => ?_, fun k hk _ => ?_, loadStream_wf hok, rfl, rfl, rfl⟩
  · exact (streamBit_loadStream k hok).trans (by rw [decide_eq_true hk, Bool.true_and])
  · exact (streamBit_loadStream k hok).trans (by rw [decide_eq_false (Nat.not_lt.mpr hk), Bool.false_and])

/-- The byte `CS_APPEND` stores: the first `CS` bits of the digest of the entropy, then zeros (R75, R152). -/
theorem streamBit_appendChecksum_byte {sb : Memory} {L j : Nat} (h : sb.wf Config.sbBytes = true) (hj : j < 8) :
    streamBit (appendChecksum sb L) (8 * L + j) =
      (decide (j < checksumBits L) && bitOf (sha256 (sb.readBytes 0 L)) j) := by
  have hbyte : (8 * L + j) / 8 = L := by omega
  have hbit : (8 * L + j) % 8 = j := by omega
  rw [streamBit_appendChecksum _ h, if_pos hbyte, hbit]

/-- `CS_APPEND` stores to no byte but the one behind the entropy (R152). -/
theorem read_appendChecksum_of_ne {sb : Memory} {L a : Nat} (h : sb.wf Config.sbBytes = true) (ha : a ≠ L) :
    (appendChecksum sb L).read a = sb.read a := by
  rw [appendChecksum, Memory.read_write _ _ _ h, if_neg ha]

/-- Settles O36: the command completes with `appendChecksum` in `SB`, one byte store whose bits are the checksum and zeros. -/
theorem csAppendAppendsChecksum : Obligations.CsAppendAppendsChecksum := by
  unfold Obligations.CsAppendAppendsChecksum
  intro s L hL hs hwf
  have hE : isEntropyLength (8 * L) = true := (isEntropyLength_iff _).mpr (List.mem_map_of_mem (f := (8 * ·)) hL)
  obtain ⟨-, hhi, -⟩ := entropyLength_bounds hE
  obtain ⟨hmod, -⟩ := combinedBits_bounds hE
  refine ⟨_, exec_csAppend_of_entropy hs hE, rfl, hmod, rfl, fun a ha => read_appendChecksum_of_ne hwf ha,
    fun j hj => ?_, fun j hj h8 => ?_, rfl, rfl, rfl⟩
  · exact (streamBit_appendChecksum_byte hwf (by omega)).trans (by rw [checksumBits, decide_eq_true hj, Bool.true_and])
  · exact (streamBit_appendChecksum_byte hwf h8).trans
      (by rw [checksumBits, decide_eq_false (Nat.not_lt.mpr hj), Bool.false_and])

end Sys2Proof.Machine
end

section
/-! PROOFS. Scope: the Bit Chunk Extractor. When its commands complete, that the indices and the stream they spell determine
each other, and the byte-level form of `READ11`. -/

namespace Sys2Proof.Machine

/-! ### When the commands complete -/

section
variable {s : State}

theorem exec_bcxNext_of_le (hm : s.slen % 11 = 0) (hp : s.pos + 11 ≤ s.slen) (hl : s.slen ≤ 264) :
    exec .bcxNext s = .next ((s.setPos (s.pos + 11)).respond (.ok (.index (read11 s.sb s.pos)))) := by
  have hin : ¬ (s.slen < s.pos + 11 ∨ 264 < s.slen) := by omega
  exact (if_neg (not_not.mpr hm)).trans ((if_neg (by omega)).trans (if_neg hin))

theorem exec_bcxNext_of_end (hm : s.slen % 11 = 0) (hp : s.pos = s.slen) :
    exec .bcxNext s = .next (s.respond .endOfStream) :=
  (if_neg (not_not.mpr hm)).trans (if_pos hp)

end

/-- Settles O40: the command completes with its one response, `End`. -/
theorem bcxNextEndOfStream : Obligations.BcxNextEndOfStream := fun _ => exec_bcxNext_of_end

/-- Settles O41: the length is the first check of both commands. -/
theorem extractorRefusesOtherLengths : Obligations.ExtractorRefusesOtherLengths := fun _ hm =>
  ⟨execBcxNext_refused_iff.mpr ⟨rfl, hm⟩, execBcxAll_refused_iff.mpr ⟨rfl, hm⟩⟩

/-- Settles O39: the index is `READ11` at the cursor, whose bits are those of the stream from there on. -/
theorem bcxNextReadsEleven : Obligations.BcxNextReadsEleven := by
  unfold Obligations.BcxNextReadsEleven
  intro s hm hp hl
  exact ⟨_, read11 s.sb s.pos, exec_bcxNext_of_le hm hp hl, rfl, rfl, fun j hj => getLsbD_read11 s.sb s.pos j hj,
    rfl, rfl, rfl, rfl⟩

/-- Settles O42: the indices are `allIndices`, which spell the whole stream as its length is a multiple of 11. -/
theorem bcxAllReturnsIndices : Obligations.BcxAllReturnsIndices := by
  unfold Obligations.BcxAllReturnsIndices
  intro s hm hl
  exact ⟨_, allIndices s.sb s.slen, exec_bcxAll_of_le hm hl, rfl, length_allIndices s.sb s.slen,
    fun k hk => indexBit_allIndices s.sb s.slen k (by omega), rfl, rfl, rfl, rfl, rfl⟩

/-! ### `BCX_NEXT` until `End` -/

/-- The state after `n` reads from the start of the stream: the cursor behind the first `n` indices, and those answered. -/
def State.afterReads (s : State) (n : Nat) : State :=
  { s with pos := 11 * n, out := s.out ++ (allIndices s.sb (11 * n)).map fun v => .ok (.index v) }

theorem State.afterReads_zero {s : State} (hp : s.pos = 0) : s.afterReads 0 = s := by
  obtain ⟨he, sb, slen, pos, inbox, out⟩ := s
  obtain rfl : pos = 0 := hp
  simp [State.afterReads, allIndices]

theorem allIndices_succ (sb : Memory) (n : Nat) :
    allIndices sb (11 * (n + 1)) = allIndices sb (11 * n) ++ [read11 sb (11 * n)] := by
  simp [allIndices, Config.chunkBits, List.range_succ]

section
variable {s : State} {n : Nat} (hm : s.slen % 11 = 0) (hl : s.slen ≤ 264)
include hm hl

/-- One more `BCX_NEXT` reads one more index. -/
theorem exec_bcxNext_afterReads (hn : 11 * (n + 1) ≤ s.slen) :
    exec .bcxNext (s.afterReads n) = .next (s.afterReads (n + 1)) := by
  rw [exec_bcxNext_of_le (s := s.afterReads n) hm hn hl, State.afterReads, State.afterReads, allIndices_succ,
    List.map_append, ← List.append_assoc]
  rfl

theorem execSeq_replicate_bcxNext (hp : s.pos = 0) (hn : 11 * n ≤ s.slen) :
    execSeq (List.replicate n .bcxNext) s = .next (s.afterReads n) := by
  induction n with
  | zero => rw [List.replicate_zero, execSeq, State.afterReads_zero hp]
  | succ n ih =>
    rw [List.replicate_succ', execSeq_append_next (ih (by omega)),
      execSeq_cons_next (exec_bcxNext_afterReads hm hl hn), execSeq]

end

/-- Settles O43: the reads give the indices of `BCX_ALL` and bring the cursor to the end, where the last `BCX_NEXT` answers
`End`. -/
theorem nextUntilEndIsAll : Obligations.NextUntilEndIsAll := by
  unfold Obligations.NextUntilEndIsAll
  intro s hm hl hp
  have hlen : 11 * (s.slen / 11) = s.slen := Nat.mul_div_cancel' (Nat.dvd_of_mod_eq_zero hm)
  have hreads := execSeq_replicate_bcxNext hm hl hp hlen.le
  have hend := exec_bcxNext_of_end (s := s.afterReads (s.slen / 11)) hm hlen
  refine ⟨(s.afterReads (s.slen / 11)).respond .endOfStream, _, allIndices s.sb s.slen, ?_, exec_bcxAll_of_le hm hl, ?_, rfl,
    hlen, rfl, rfl, rfl⟩
  · rw [List.replicate_succ', execSeq_append_next hreads, execSeq_cons_next hend, execSeq]
  · rw [State.respond_out, State.afterReads, hlen]

/-! ### The indices and the stream determine each other -/

/-- An index is its eleven bits, most significant first. -/
theorem index_ext {v w : Index} (h : ∀ t, t < 11 → v.getLsbD (10 - t) = w.getLsbD (10 - t)) : v = w := by
  refine BitVec.eq_of_getMsbD_eq fun t ht => ?_
  simpa [BitVec.getMsbD, ht] using h t ht

theorem indexBit_eq_getElem {vs : List Index} {j t : Nat} (hj : j < vs.length) (ht : t < 11) :
    indexBit vs (11 * j + t) = vs[j].getLsbD (10 - t) := by
  have hd : (11 * j + t) / 11 = j := by omega
  have hr : (11 * j + t) % 11 = t := by omega
  rw [indexBit, hd, hr, List.getD_eq_getElem _ _ hj]

/-- A sequence of indices is its length and the stream it spells. -/
theorem indices_ext {vs ws : List Index} (hl : vs.length = ws.length)
    (hb : ∀ k, k < 11 * vs.length → indexBit vs k = indexBit ws k) : vs = ws := by
  apply List.ext_getElem hl
  intro j hj hj'
  apply index_ext
  intro t ht
  rw [← indexBit_eq_getElem hj ht, ← indexBit_eq_getElem hj' ht]
  exact hb _ (by omega)

/-- The bytes of the stream a sequence of indices spells, zero bits behind it (R74, R165). -/
def packIndices (xs : List Index) : List Byte :=
  (List.range (ceilBytes (11 * xs.length))).map fun a => BitVec.ofFnBE fun i => indexBit xs (8 * a + i)

@[simp] theorem length_packIndices (xs : List Index) : (packIndices xs).length = (11 * xs.length + 7) / 8 := by
  simp [packIndices, ceilBytes]

theorem bitOf_packIndices {xs : List Index} {k : Nat} (hk : k < 11 * xs.length) :
    bitOf (packIndices xs) k = indexBit xs k := by
  have hbyte : k / 8 < (packIndices xs).length := by rw [length_packIndices]; omega
  have hbit : 7 - (7 - k % 8) = k % 8 := by omega
  rw [bitOf, List.getD_eq_getElem _ _ hbyte]
  simp [packIndices, hbit, Nat.div_add_mod, show 7 - k % 8 < 8 by omega]

theorem streamOperandsOk_packIndices {xs : List Index} (hl : xs.length ≤ 24) :
    streamOperandsOk (11 * xs.length) (packIndices xs) = true :=
  (streamOperandsOk_iff _ _).mpr ⟨by omega, length_packIndices xs⟩

/-- The indices of the packed stream are the ones packed. -/
theorem allIndices_loadStream_packIndices {xs : List Index} (hl : xs.length ≤ 24) :
    allIndices (loadStream (11 * xs.length) (packIndices xs)) (11 * xs.length) = xs := by
  have hcount : 11 * xs.length / 11 = xs.length := Nat.mul_div_cancel_left _ (by decide)
  apply indices_ext
  · rw [length_allIndices, hcount]
  · intro k hk
    rw [length_allIndices, hcount] at hk
    rw [indexBit_allIndices _ _ k (by omega), streamBit_loadStream k (streamOperandsOk_packIndices hl), decide_eq_true hk,
      Bool.true_and, bitOf_packIndices hk]

/-- Settles O44: the data are the indices packed into bytes. -/
theorem everyIndexSequenceHasAStream : Obligations.EveryIndexSequenceHasAStream := by
  unfold Obligations.EveryIndexSequenceHasAStream
  intro xs hl
  refine ⟨packIndices xs, length_packIndices xs, fun s => ?_⟩
  have hload := exec_sbLoad_of_ok (s := s) (streamOperandsOk_packIndices hl)
  have hle : 11 * xs.length ≤ 264 := by omega
  refine ⟨_, (execSeq_cons_next hload).trans (execSeq_cons_next (exec_bcxAll_of_le (Nat.mul_mod_right 11 _) hle)), ?_⟩
  simp [allIndices_loadStream_packIndices hl]

/-- A stream with zero bits behind it is what the indices read from it spell. -/
theorem streamBit_eq_indexBit {s : State} (hs : s.Inv) (hm : s.slen % 11 = 0) {k : Nat} (hk : k < 264) :
    streamBit s.sb k = (decide (k < s.slen) && indexBit (allIndices s.sb s.slen) k) := by
  by_cases hin : k < s.slen
  · rw [indexBit_allIndices _ _ k (by omega), decide_eq_true hin, Bool.true_and]
  · rw [hs.sb_clear k (Nat.le_of_not_lt hin) hk, decide_eq_false hin, Bool.false_and]

/-- Settles O45: equal responses carry equal indices, which spell every bit of `SB` up to `SLEN`; behind it both are zero. -/
theorem indicesDetermineStream : Obligations.IndicesDetermineStream := by
  unfold Obligations.IndicesDetermineStream
  intro s s' t t' r hs hs' hslen h h' hr hr'
  obtain ⟨hm, -, rfl⟩ := execBcxAll_next h
  obtain ⟨hm', -, rfl⟩ := execBcxAll_next h'
  have hall : .ok (.indices (allIndices s.sb s.slen)) = r := List.singleton_inj.mp (List.append_cancel_left hr)
  have hall' : .ok (.indices (allIndices s'.sb s'.slen)) = r := List.singleton_inj.mp (List.append_cancel_left hr')
  have heq : allIndices s.sb s.slen = allIndices s'.sb s'.slen := by
    injection hall.trans hall'.symm with hp
    injection hp
  refine Memory.ext_of_bits hs.sb_wf hs'.sb_wf fun k hk => ?_
  rw [streamBit_eq_indexBit hs hm hk, streamBit_eq_indexBit hs' hm' hk, heq, hslen]

/-! ### The byte-level form of `READ11` -/

/-- The bits of a window of three bytes, from its least significant. -/
theorem testBit_window (a b c : Byte) (i : Nat) :
    (a.toNat * 65536 + b.toNat * 256 + c.toNat).testBit i =
      if i < 8 then c.getLsbD i else if i < 16 then b.getLsbD (i - 8) else a.getLsbD (i - 16) := by
  have hsum : a.toNat * 65536 + b.toNat * 256 + c.toNat = 2 ^ 8 * (2 ^ 8 * a.toNat + b.toNat) + c.toNat := by ring
  rw [hsum, Nat.testBit_two_pow_mul_add _ c.isLt, Nat.testBit_two_pow_mul_add _ b.isLt]
  split
  · rfl
  · split
    · rw [if_pos (by omega)]
      rfl
    · rw [if_neg (by omega), Nat.sub_sub]
      rfl

/-- Stream bit `8 * q + i` is bit `23 - i` of the window at byte `q`. -/
theorem testBit_window_read (sb : Memory) (q i : Nat) (hi : i < 24) :
    ((sb.read q).toNat * 65536 + (sb.read (q + 1)).toNat * 256 + (sb.read (q + 2)).toNat).testBit (23 - i) =
      streamBit sb (8 * q + i) := by
  rw [testBit_window, streamBit]
  split
  · rw [show (8 * q + i) / 8 = q + 2 by omega, show 7 - (8 * q + i) % 8 = 23 - i by omega]
  · split
    · rw [show (8 * q + i) / 8 = q + 1 by omega, show 7 - (8 * q + i) % 8 = 23 - i - 8 by omega]
    · rw [show (8 * q + i) / 8 = q by omega, show 7 - (8 * q + i) % 8 = 23 - i - 16 by omega]

theorem getLsbD_read11Window (sb : Memory) (p t : Nat) (ht : t < 11) :
    (read11Window sb p).getLsbD (10 - t) = streamBit sb (p + t) := by
  have hmask : (0x7FF).testBit (10 - t) = true := by
    rw [show 0x7FF = 2 ^ 11 - 1 from rfl, Nat.testBit_two_pow_sub_one]
    exact decide_eq_true (by omega)
  have hpos : 13 - p % 8 + (10 - t) = 23 - (p % 8 + t) := by omega
  have hbit : 8 * (p / 8) + (p % 8 + t) = p + t := by omega
  rw [read11Window, BitVec.getLsbD_ofNat, decide_eq_true (by omega), Bool.true_and, Nat.testBit_and, hmask, Bool.and_true,
    Nat.testBit_shiftRight, hpos, testBit_window_read sb (p / 8) _ (by omega), hbit]

/-- The bytes that hold the eleven bits from `p` on: two, and a third at bit offsets 6 and 7 (R163). -/
theorem byte_of_read11_bit {p t : Nat} (ht : t < 11) :
    (p + t) / 8 = p / 8 ∨ (p + t) / 8 = p / 8 + 1 ∨ (6 ≤ p % 8 ∧ (p + t) / 8 = p / 8 + 2) := by omega

/-- Settles O46: both forms have the same eleven bits, each of which lies in one of the bytes named. -/
theorem readWindowForm : Obligations.ReadWindowForm := by
  unfold Obligations.ReadWindowForm
  refine ⟨fun sb p => index_ext fun t ht => ?_, fun sb sb' p h0 h1 h2 => index_ext fun t ht => ?_⟩
  · rw [getLsbD_read11 sb p t ht, getLsbD_read11Window sb p t ht]
  · rw [getLsbD_read11 sb p t ht, getLsbD_read11 sb' p t ht, streamBit, streamBit]
    obtain hq | hq | ⟨ho, hq⟩ := byte_of_read11_bit (p := p) ht
    · rw [hq, h0]
    · rw [hq, h1]
    · rw [hq, h2 ho]

end Sys2Proof.Machine
end

section
/-! PROOFS. Scope: the fault responses. When a command answers one, that it then changes nothing else, and that a step with
nothing issued changes nothing at all. -/

namespace Sys2Proof.Machine

/-! ### Operands and lengths that are not accepted -/

theorem streamOperandsOk_eq_false_iff (nbits : Nat) (data : List Byte) :
    streamOperandsOk nbits data = false ↔ 264 < nbits ∨ data.length ≠ (nbits + 7) / 8 := by
  rw [← Bool.not_eq_true, streamOperandsOk_iff, Decidable.not_and_iff_or_not, Nat.not_le]

theorem isEntropyLength_eq_false_iff (slen : Nat) :
    isEntropyLength slen = false ↔ slen ∉ [128, 160, 192, 224, 256] := by
  rw [← Bool.not_eq_true, isEntropyLength_iff]

/-! ### When a command answers a fault -/

section
variable {s : State}

theorem exec_heUpdate_of_finalized (data : List Byte) (he : s.he = .finalized) :
    exec (.heUpdate data) s = .next (s.respond (.fault .useAfterFinalize)) := by
  simp only [exec, execHeUpdate, he, raise]

theorem exec_heFinal_of_finalized (he : s.he = .finalized) :
    exec .heFinal s = .next (s.respond (.fault .useAfterFinalize)) := by
  simp only [exec, execHeFinal, he, raise]

theorem exec_sbLoad_of_not_ok {nbits : Nat} {data : List Byte} (h : streamOperandsOk nbits data = false) :
    exec (.sbLoad nbits data) s = .next (s.respond (.fault .badOperand)) :=
  if_neg (Bool.eq_false_iff.mp h)

theorem exec_csAppend_of_not_entropy (h : isEntropyLength s.slen = false) :
    exec .csAppend s = .next (s.respond (.fault .invalidSize)) :=
  if_neg (Bool.eq_false_iff.mp h)

end

/-- Settles O32: the phase is the first check of both commands. -/
theorem finalizedEngineFaults : Obligations.FinalizedEngineFaults := fun _ data he =>
  ⟨exec_heUpdate_of_finalized data he, exec_heFinal_of_finalized he⟩

/-- Settles O37: the length is the first check of the command. -/
theorem csAppendInvalidSize : Obligations.CsAppendInvalidSize := fun s hs =>
  exec_csAppend_of_not_entropy ((isEntropyLength_eq_false_iff s.slen).mpr hs)

/-! ### Which commands answer a fault -/

/-- The command `i` has a cause in the state `s` to answer `Fault(c)` (R182 to R185, R187, R189). -/
def FaultCause (i : Instr) (s : State) (c : FaultCode) : Prop :=
  (c = .useAfterFinalize ∧ (i = .heFinal ∨ ∃ data, i = .heUpdate data) ∧ s.he = .finalized) ∨
  (c = .invalidSize ∧ i = .csAppend ∧ s.slen ∉ [128, 160, 192, 224, 256]) ∨
  (c = .badOperand ∧ ∃ nbits data, i = .sbLoad nbits data ∧ (264 < nbits ∨ data.length ≠ (nbits + 7) / 8))

section
variable {i : Instr} {s t u : State} {c : FaultCode}

/-- What a command appended to `out` is its response, and no other. -/
theorem response_eq {r r' : Response} (hu : u.out = s.out) (h : (u.respond r).out = s.out ++ [r']) : r = r' := by
  rw [State.respond_out, hu] at h
  exact List.singleton_inj.mp (List.append_cancel_left h)

/-- A command that answers a fault has a cause for it, and does nothing but answer: each command raises before it assigns, and
on every other path it answers `Ok` or `End`. -/
theorem exec_next_fault (h : exec i s = .next t) (hout : t.out = s.out ++ [.fault c]) :
    t = s.respond (.fault c) ∧ FaultCause i s c := by
  cases i with
  | heInit =>
    obtain rfl := execHeInit_next h
    cases response_eq rfl hout
  | heUpdate data =>
    obtain ⟨he, rfl⟩ | ⟨e, -, -, -, rfl⟩ := execHeUpdate_next h
    · cases response_eq rfl hout
      exact ⟨rfl, .inl ⟨rfl, .inr ⟨data, rfl⟩, he⟩⟩
    · cases response_eq rfl hout
  | heFinal =>
    obtain ⟨he, rfl⟩ | ⟨e, -, -, rfl⟩ := execHeFinal_next h
    · cases response_eq rfl hout
      exact ⟨rfl, .inl ⟨rfl, .inl rfl, he⟩⟩
    · cases response_eq rfl hout
  | heHash data =>
    obtain ⟨-, rfl⟩ := execHeHash_next h
    cases response_eq rfl hout
  | sbLoad nbits data =>
    obtain ⟨-, rfl⟩ | ⟨hbad, rfl⟩ := execSbLoad_next h
    · cases response_eq rfl hout
    · cases response_eq rfl hout
      exact ⟨rfl, .inr (.inr ⟨rfl, nbits, data, rfl, (streamOperandsOk_eq_false_iff nbits data).mp hbad⟩)⟩
  | csAppend =>
    obtain ⟨-, rfl⟩ | ⟨hlen, rfl⟩ := execCsAppend_next h
    · cases response_eq rfl hout
    · cases response_eq rfl hout
      exact ⟨rfl, .inr (.inl ⟨rfl, rfl, (isEntropyLength_eq_false_iff s.slen).mp hlen⟩)⟩
  | bcxNext =>
    obtain ⟨-, ⟨-, rfl⟩ | ⟨-, -, rfl⟩⟩ := execBcxNext_next h
    · cases response_eq rfl hout
    · cases response_eq rfl hout
  | bcxAll =>
    obtain ⟨-, -, rfl⟩ := execBcxAll_next h
    cases response_eq rfl hout

end

/-- Settles O51: the state that answers a fault is the given one with the response. -/
theorem faultChangesNothing : Obligations.FaultChangesNothing := fun _ _ _ _ h hout => (exec_next_fault h hout).left

/-- Settles O52: the cause found for a fault is one of the three listed. -/
theorem faultsByCommand : Obligations.FaultsByCommand := fun _ _ _ _ h hout => (exec_next_fault h hout).right

/-- Settles O35: malformed operands fail the command's one check, and they are the only cause of this fault. -/
theorem badOperandOnlyFromSbLoad : Obligations.BadOperandOnlyFromSbLoad := by
  unfold Obligations.BadOperandOnlyFromSbLoad
  refine ⟨fun s nbits data hbad => exec_sbLoad_of_not_ok ((streamOperandsOk_eq_false_iff nbits data).mpr hbad),
    fun i s t h hout => ?_⟩
  obtain ⟨hc, -⟩ | ⟨hc, -⟩ | ⟨-, hcause⟩ := faultsByCommand i s t .badOperand h hout
  · cases hc
  · cases hc
  · exact hcause

/-! ### No command issued -/

/-- Settles O11: there is nothing to take, and the idle step is the state itself. -/
theorem nothingIssuedHoldsState : Obligations.NothingIssuedHoldsState := by
  unfold Obligations.NothingIssuedHoldsState
  intro s hs
  simp only [step, fetch, hs, idle]

end Sys2Proof.Machine
end

section
/-! PROOFS. Scope: reset and the sequencing hazards. The values `HE_INIT` shares with reset, what each command answers right
after reset, that `CS_APPEND` is one-time, and which commands rewind the cursor. -/

namespace Sys2Proof.Machine

/-! ### Right after reset -/

/-- Settles O22: the engine `HE_INIT` creates and the one of the reset state are both the empty instance. -/
theorem heInitAsReset : Obligations.HeInitAsReset := fun s =>
  ⟨_, Live.init, Live.init, exec_heInit s, rfl, rfl, rfl, rfl, rfl, rfl, rfl, rfl, rfl⟩

/-- Settles O57: the reset engine is the empty instance, which holds the empty message; the reset stream is empty, so it is at
its end, a multiple of 11 bits long, and no entropy length. -/
theorem bootState : Obligations.BootState := by
  unfold Obligations.BootState
  refine ⟨fun data hl => ⟨_, exec_heUpdate_of_live rfl ((Nat.zero_add _).trans_le hl) Live.holds_init.fill_lt, rfl⟩,
    ⟨_, exec_heFinal_of_holds rfl Live.holds_init, rfl⟩, fun data hl => ?_, ⟨_, exec_heInit _, rfl⟩,
    fun nbits data hn hlen => ⟨_, exec_sbLoad_of_ok ((streamOperandsOk_iff nbits data).mpr ⟨hn, hlen⟩), rfl⟩,
    exec_bcxNext_of_end rfl rfl, exec_bcxAll_of_le rfl (Nat.zero_le _), exec_csAppend_of_not_entropy rfl⟩
  obtain ⟨t, ht, -, hout, -⟩ := heHashReturnsDigest State.reset data hl
  exact ⟨t, ht, hout⟩

/-! ### `CS_APPEND` is one-time -/

/-- Entropy lengths are multiples of 32; the 4 to 8 checksum bits behind one make a length that is not (R75, R211). -/
theorem isEntropyLength_combinedBits {n : Nat} (h : isEntropyLength n = true) :
    isEntropyLength (combinedBits (n / 8)) = false := by
  obtain ⟨hlo, hhi, hmod⟩ := entropyLength_bounds h
  refine Bool.eq_false_iff.mpr fun hcombined => ?_
  obtain ⟨-, -, hmod'⟩ := entropyLength_bounds hcombined
  rw [combinedBits, checksumBits] at hmod'
  omega

/-- `CS_APPEND` leaves no entropy length: a success lengthened the stream, a fault found another length and kept it. -/
theorem execCsAppend_slen {s t : State} (h : execCsAppend s = .next t) : isEntropyLength t.slen = false := by
  obtain ⟨hs, rfl⟩ | ⟨hs, rfl⟩ := execCsAppend_next h
  · exact isEntropyLength_combinedBits hs
  · exact hs

/-- Settles O38: the second command finds no entropy length. -/
theorem csAppendOnlyOnce : Obligations.CsAppendOnlyOnce := fun _ _ h =>
  exec_csAppend_of_not_entropy (execCsAppend_slen h)

/-! ### The cursor -/

/-- What a command does to the cursor: it leaves `SB` alone and, from a cursor in the stream, takes it no way back, or it is
one of the two that write `SB` and rewinds it (R212). -/
theorem exec_next_cursor {i : Instr} {s t : State} (h : exec i s = .next t) :
    (t.sb = s.sb ∧ (s.pos ≤ s.slen → s.pos ≤ t.pos)) ∨
    ((i = .csAppend ∨ ∃ nbits data, i = .sbLoad nbits data) ∧ t.pos = 0) := by
  cases hi : isHashCommand i with
  | true =>
    obtain ⟨hsb, -, hpos⟩ := exec_hash_frame hi h
    exact .inl ⟨hsb, fun _ => hpos.ge⟩
  | false =>
    cases i with
    | heInit | heUpdate data | heFinal | heHash data => cases hi
    | sbLoad nbits data =>
      obtain ⟨-, rfl⟩ | ⟨-, rfl⟩ := execSbLoad_next h
      · exact .inr ⟨.inr ⟨nbits, data, rfl⟩, rfl⟩
      · exact .inl ⟨rfl, fun _ => le_rfl⟩
    | csAppend =>
      obtain ⟨-, rfl⟩ | ⟨-, rfl⟩ := execCsAppend_next h
      · exact .inr ⟨.inl rfl, rfl⟩
      · exact .inl ⟨rfl, fun _ => le_rfl⟩
    | bcxNext =>
      obtain ⟨-, ⟨-, rfl⟩ | ⟨-, -, rfl⟩⟩ := execBcxNext_next h
      · exact .inl ⟨rfl, fun _ => le_rfl⟩
      · exact .inl ⟨rfl, fun _ => Nat.le_add_right _ _⟩
    | bcxAll =>
      obtain ⟨-, -, rfl⟩ := execBcxAll_next h
      exact .inl ⟨rfl, id⟩

/-- Settles O56: the two cases of the cursor give the clauses about every command; the two commands that write `SB` answer `Ok`
only where they rewind; after `BCX_ALL` the cursor is where `BCX_NEXT` answers `End`. -/
theorem cursorRewound : Obligations.CursorRewound := by
  unfold Obligations.CursorRewound
  refine ⟨fun i s t h hsb => ?_, fun s t nbits data h hout => ?_, fun s t n bs h hout => ?_,
    fun i s t hle h hback => ?_, fun s t h => ?_⟩
  · obtain ⟨hkept, -⟩ | ⟨-, hpos⟩ := exec_next_cursor h
    · exact absurd hkept hsb
    · exact hpos
  · obtain ⟨-, rfl⟩ | ⟨-, rfl⟩ := execSbLoad_next h
    · rfl
    · cases response_eq rfl hout
  · obtain ⟨-, rfl⟩ | ⟨-, rfl⟩ := execCsAppend_next h
    · rfl
    · cases response_eq rfl hout
  · obtain ⟨-, hforward⟩ | ⟨hi, -⟩ := exec_next_cursor h
    · exact absurd hback (Nat.not_lt.mpr (hforward hle))
    · exact hi
  · obtain ⟨hm, -, rfl⟩ := execBcxAll_next h
    exact ⟨rfl, exec_bcxNext_of_end hm rfl⟩

end Sys2Proof.Machine
end
